-- ==== Sys2Proof/Config.lean ====
section
/-! DEFINITION. The parameters of the block (spec/00_scope.md R5 to R11): the fixed constants, and `Config`, the one
parameter an instance chooses (`DUR_W`). The spec leaves no value open to a free value, so there is no opaque constant. -/

namespace Sys2Proof

/-- R11: `DUR_W` is the only configuration parameter. -/
structure Config where
  /-- `DUR_W` (R9): the width in bits of `cmd_dur`. -/
  durW : Nat
deriving DecidableEq, Repr

namespace Config

/-- R9: the default `DUR_W` is 32; every encoding the spec writes out is for it. -/
def standard : Config := { durW := 32 }

/-- R9: `DUR_W >= 10`, so that 850 and 851 are both representable. -/
def valid (c : Config) : Bool := decide (10 ≤ c.durW)

/-- `MAX_BITS` (R5). -/
abbrev maxBits : Nat := 40

/-- `THRESHOLD` (R6), in the unit of the durations the host presents (R19: microseconds in the source's system). -/
abbrev threshold : Nat := 850

/-- `HEX_DIGITS = MAX_BITS / 4` (R7). -/
abbrev hexDigits : Nat := maxBits / 4

/-- `HEX_CHARS` (R7): the two characters before the digits, and the digits. -/
abbrev hexChars : Nat := 2 + hexDigits

/-- `CODE_W` (R8). -/
abbrev codeW : Nat := 40

/-- `LEN_W` (R10). -/
abbrev lenW : Nat := 6

end Config

end Sys2Proof
end

