-- ==== Sys2Proof/Machine/Operands.lean ====
section
/-! DEFINITION. The one operand, a duration: the bit a space gives (spec/40_pdm_decoder.md R74), and the host's side of an
operand that does not fit the port (spec/60_exceptions.md R114). Its assembly from the word, R52, is `durField` of
Sys2Proof/Decode.lean. -/

namespace Sys2Proof.Machine

/-- R74: `bit(d > THRESHOLD)`, strict and unsigned. -/
def spaceBit (d : Nat) : Bool := decide (d > Config.threshold)

/-- R114: what the host presents for a duration of any size or sign: 0 for a negative one, `2^DUR_W - 1` for one too large. -/
def presentDuration (durW : Nat) (d : Int) : Nat := if d < 0 then 0 else min d.toNat (2 ^ durW - 1)

end Sys2Proof.Machine
end

