-- ==== Sys2Proof/Syntax.lean ====
section
/-! DEFINITION. The commands (spec/30_encoding.md R53; spec/opcode_table.json): one constructor per row of the opcode table.
Each carries the `dur` field of its word (R51), also where the command ignores it (R54), so that a command and its word say
the same. -/

namespace Sys2Proof

/-- A command as syntax. `dur` is the operand `d = zext(cmd_dur)` of R52, an unsigned integer. -/
inductive Instr where
  /-- `op = 00` (R77); `dur` is ignored. -/
  | nop (dur : Nat)
  /-- `op = 01` (R78); `dur` is ignored. -/
  | clear (dur : Nat)
  /-- `op = 10` (R79): present one payload element of duration `dur`. -/
  | push (dur : Nat)
  /-- `op = 11` (R55): reserved. -/
  | reserved (dur : Nat)
deriving DecidableEq, Repr

namespace Instr

/-- The `dur` field of the command's word. -/
def dur : Instr → Nat
  | .nop d => d
  | .clear d => d
  | .push d => d
  | .reserved d => d

/-- The row's mnemonic in the opcode table. -/
def mnemonic : Instr → String
  | .nop _ => "NOP"
  | .clear _ => "CLEAR"
  | .push _ => "PUSH"
  | .reserved _ => "RESERVED"

/-- The command is a NOP; R80 lets any number of them stand between the commands of a frame. -/
def isNop : Instr → Bool
  | .nop _ => true
  | .clear _ => false
  | .push _ => false
  | .reserved _ => false

end Instr

end Sys2Proof
end

