-- ==== Sys2Proof/WellFormed.lean ====
section
/-! DEFINITION. Well-formed commands: the duration fits the port `cmd_dur` (spec/30_encoding.md R52: 0 to `2^DUR_W - 1`). It
is the one check a command needs, for every constructor. -/

namespace Sys2Proof

/-- R52, R57: the operand is below `2^DUR_W`. -/
def Instr.wf (durW : Nat) (i : Instr) : Bool := decide (i.dur < 2 ^ durW)

end Sys2Proof
end

