-- ==== Sys2Proof/Word.lean ====
section
/-! DEFINITION. The bit-vector types of the block: the Code (spec/00_scope.md R8), the opcode field (spec/30_encoding.md
R51), one hexadecimal digit and one byte of `hex_o` (spec/41_code_packer.md R95, R99). -/

namespace Sys2Proof

/-- The Code and the register `BITS`: `CODE_W` bits (R8, R20). -/
abbrev Code := BitVec Config.codeW

/-- The field `op` of a command word (R51). -/
abbrev Opcode := BitVec 2

/-- One hexadecimal digit's value (R95). -/
abbrev Nibble := BitVec 4

/-- One byte of `hex_o` (R99). -/
abbrev Byte := BitVec 8

end Sys2Proof
end

