-- ==== Sys2Proof/Decode.lean ====
section
/-! DEFINITION. The command word `CW` of `DUR_W + 2` bits (spec/30_encoding.md R50 to R56): its fields, the opcode map as
data, the decoder and, after it, the encoder. A word is a natural number with bit 0 its least significant bit (R12), because
its width is a parameter (R9); a number too large for the word's width is rejected by name. -/

namespace Sys2Proof

/-- Why a number is no command word, or a command has none. -/
inductive CodeError where
  /-- The number has a bit at or above bit `DUR_W + 2`: no command word (R50). -/
  | wordTooWide
  /-- The command's duration is at or above `2^DUR_W`: the command word cannot carry it (R114). -/
  | durationTooWide
deriving DecidableEq, Repr

/-- R51: the field `op = CW[DUR_W+1:DUR_W]`. -/
def opField (durW cw : Nat) : Opcode := BitVec.ofNat 2 (cw >>> durW)

/-- R51, R52: the field `dur = CW[DUR_W-1:0]`, zero-extended. -/
def durField (durW cw : Nat) : Nat := cw % 2 ^ durW

/-- R53: the command an opcode selects, with the word's `dur` field. -/
def commandOf (op : Opcode) (dur : Nat) : Instr :=
  if op = 0b00#2 then .nop dur
  else if op = 0b01#2 then .clear dur
  else if op = 0b10#2 then .push dur
  else .reserved dur

/-- The decoder: total on the command words of R50; any other number is rejected by name. -/
def decode (durW cw : Nat) : Except CodeError Instr :=
  if cw < 2 ^ (durW + 2) then .ok (commandOf (opField durW cw) (durField durW cw))
  else .error .wordTooWide

/-- One row of the opcode map (R53): a word `w` selects it when `(w AND mask) = match`. -/
structure OpcodeRow where
  mnemonic : String
  bitsMatch : Nat
  bitsMask : Nat
deriving DecidableEq, Repr

/-- R53: the row's selection rule. -/
def OpcodeRow.selects (row : OpcodeRow) (cw : Nat) : Bool := decide (cw &&& row.bitsMask = row.bitsMatch)

/-- R53: the opcode map; the columns match and mask moved to the place of `op` for a width `DUR_W` (R51). -/
def opcodeTable (durW : Nat) : List OpcodeRow :=
  [ { mnemonic := "NOP", bitsMatch := 0 <<< durW, bitsMask := 3 <<< durW },
    { mnemonic := "CLEAR", bitsMatch := 1 <<< durW, bitsMask := 3 <<< durW },
    { mnemonic := "PUSH", bitsMatch := 2 <<< durW, bitsMask := 3 <<< durW },
    { mnemonic := "RESERVED", bitsMatch := 3 <<< durW, bitsMask := 3 <<< durW } ]

/-- R53: the opcode of a command. -/
def Instr.opcode : Instr → Opcode
  | .nop _ => 0b00#2
  | .clear _ => 0b01#2
  | .push _ => 0b10#2
  | .reserved _ => 0b11#2

/-- R50: `CW = {cmd_op, cmd_dur}`, for a `cmd_dur` that fits its port. -/
def commandWord (durW : Nat) (op : Opcode) (dur : Nat) : Nat := op.toNat * 2 ^ durW + dur

/-- The encoder. It refuses a duration the command word cannot carry (R57, R114). -/
def encode (durW : Nat) (i : Instr) : Except CodeError Nat :=
  if i.wf durW then .ok (commandWord durW i.opcode i.dur) else .error .durationTooWide

/-- The command the decoder reads from a word of spec/opcode_table.json. The table numbers a word as the spec numbers `CW`
(bit 0 the least significant, R51), writes it for the default `DUR_W`, and gives every row all its 34 bits, so `w` is the
word whatever the count of its bits. -/
def decodeTableWord (_nbits w : Nat) : Option Instr := (decode Config.standard.durW w).toOption

end Sys2Proof
end

