-- ==== Sys2Proof/Machine/State.lean ====
section
/-! DEFINITION. The state of the machine (spec/10_state.md R20, R33): the three registers, or `Uninit`; the refusal or fault
recorded for the run; and, as the model's own fields, the instance's parameter `DUR_W`, the host's side of the ports (what it
does next, spec/10_state.md R30, and what it has read, R31). The block has no memory (spec/20_memory.md R40). -/

namespace Sys2Proof.Machine

/-- The faults of the spec (R113). -/
inductive Fault where
  /-- A PUSH in `Uninit` (R79, R113, R130). Raised by `execPush`. Safe: the hardware goes on with unknown registers, and the
  model proves nothing of it. -/
  | pushBeforeInit
  /-- The host reads an output in `Uninit` (R104, R113, R130). Raised by `observeOutput`. Safe: as above. -/
  | readBeforeInit
deriving DecidableEq, Repr

/-- The refusals: no meaning is given. -/
inductive Refusal where
  /-- Raised by an arm of `exec` whose instruction has no meaning yet: no arm of this model. Safe. -/
  | notModelled (mnemonic : String)
  /-- `op = 11` with `rst = 0` (R55, R112). Raised by `execReserved`. Safe: the spec gives no behaviour, the model admits
  none. -/
  | reservedOp
  /-- The host's event holds a number that is no command word, with `rst = 0`: the ports cannot carry it (R50, R139). Raised by
  `commandEdge`. Safe: no hardware run presents it. -/
  | badCommandWord (e : CodeError)
deriving DecidableEq, Repr

/-- What R33 records in the state: a fault or a refusal (R112, R113). -/
inductive Stop where
  | fault (f : Fault)
  | refusal (r : Refusal)
deriving DecidableEq, Repr

/-- The register `PHASE` (R20, R24): which element of the payload comes next. -/
inductive Phase where
  /-- `PHASE = 0`: the next element has even index, a mark. -/
  | mark
  /-- `PHASE = 1`: the next element has odd index, a space. -/
  | space
deriving DecidableEq, Repr

/-- The three registers, all holding a value: R33's `Ready(BITS, LEN, PHASE)`. -/
structure RegFile where
  /-- `BITS` (R20, R21): BitVector index `i` is bit `i`. -/
  bits : Code
  /-- `LEN`, 0 to 40 (R23 and R33 let a model type it so; encodings 41 to 63 are never reached). -/
  len : Fin 41
  /-- `PHASE` (R20, R24). -/
  phase : Phase
deriving DecidableEq, Repr

/-- R20: the reset values. -/
def RegFile.resetValues : RegFile := { bits := 0x0000000000#40, len := 0, phase := .mark }

/-- R33: `Uninit` (before the first reset or CLEAR the registers hold no value, R130) or `Ready`. -/
inductive Regs where
  | uninit
  | ready (r : RegFile)
deriving DecidableEq, Repr

/-- The output ports (R31). -/
inductive OutPort where
  | len
  | full
  | code
  | hex
deriving DecidableEq, Repr

/-- What the host sees when it reads an output port: the port and its value (R31). -/
inductive Observation where
  | len (v : BitVec Config.lenW)
  | full (v : BitVec 1)
  | code (v : BitVec Config.codeW)
  | hex (v : BitVec 96)
deriving DecidableEq, Repr

/-- What the outside world does to the block. -/
inductive HostEvent where
  /-- A rising edge of `clk` with `rst` and the command word `CW = {cmd_op, cmd_dur}` on the input ports (R30, R50). -/
  | edge (rst : Bool) (cw : Nat)
  /-- The host reads an output port between two edges (R31, R45). -/
  | observe (p : OutPort)
  /-- A loss of power (R122). -/
  | powerLoss
deriving DecidableEq, Repr

/-- The state: plain data. -/
structure State where
  /-- The instance's parameter (R9, R11): no step changes it. The model's own field. -/
  config : Config
  /-- The registers (R20, R33). -/
  regs : Regs
  /-- The first fault or refusal of the run (R33, R112, R113). -/
  record : Option Stop
  /-- What the host does next, the first event first. The model's own field: the stream of the input ports (R30, R45). -/
  inputs : List HostEvent
  /-- What the host has read, oldest first. The model's own field: the output ports' readings (R31). -/
  observed : List Observation
deriving DecidableEq, Repr

/-- The state right after reset (R20, R131): the reset values, nothing recorded, an instance of the default `DUR_W` (R9). The
host has presented nothing and read nothing. -/
def State.reset : State :=
  { config := Config.standard, regs := .ready RegFile.resetValues, record := none, inputs := [], observed := [] }

/-- The state at power-on (R130): the registers hold no value. -/
def State.powerOn : State :=
  { config := Config.standard, regs := .uninit, record := none, inputs := [], observed := [] }

end Sys2Proof.Machine
end

