-- ==== Sys2Proof/Machine/Flags.lean ====
section
/-! DEFINITION. The status outputs (spec/41_code_packer.md R101, R102): functions of `LEN` alone. The block has no flag register
and no command reads them (spec/10_state.md R27). -/

namespace Sys2Proof.Machine

/-- R101: `len_o[5:0] = LEN`. -/
def RegFile.lenO (r : RegFile) : BitVec Config.lenW := BitVec.ofNat Config.lenW r.len.val

/-- R102: `full_o = bit(LEN = 40)`. -/
def RegFile.fullO (r : RegFile) : BitVec 1 := BitVec.ofBool (decide (r.len.val = Config.maxBits))

end Sys2Proof.Machine
end

