-- ==== Sys2Proof/Machine/Reference.lean ====
section
/-! DEFINITION. The source's reference functions, which the spec asks a model to define beside the commands
(spec/40_pdm_decoder.md R70, spec/41_code_packer.md R90, R95): `decodePayload`, `pack` and `hex`. No command calls `decodePayload`
or `pack`: R80 says that the commands compute them. -/

namespace Sys2Proof.Machine

/-- R70's walk with room for `room` more bits: skip the mark, give the space's bit, go on. -/
def decodeWalk : (room : Nat) → List Nat → List Bool
  | room + 1, _ :: space :: rest => spaceBit space :: decodeWalk room rest
  | _, _ => []

/-- R70: `decode(P)`, of at most `MAX_BITS` bits. -/
def decodePayload (payload : List Nat) : List Bool := decodeWalk Config.maxBits payload

/-- R90: the sum over `i` of `B[i] * 2^i`. -/
def packValue : List Bool → Nat
  | [] => 0
  | b :: rest => b.toNat + 2 * packValue rest

/-- R90: `pack(B)` as a Code, for a BitVector of at most 40 bits. -/
def pack (bits : List Bool) : Code := BitVec.ofNat Config.codeW (packValue bits)

/-- R95, R99: `C[39-4j : 36-4j]`, the value of digit `j` counted from the left, for `j` from 0 to 9. -/
def nibble (c : Code) (j : Nat) : Nibble := c.extractLsb' (36 - 4 * j) 4

/-- R95, R96: the digits' characters by value. -/
def hexAlphabet : List Char :=
  ['0', '1', '2', '3', '4', '5', '6', '7', '8', '9', 'A', 'B', 'C', 'D', 'E', 'F']

/-- R95: `digit(n)`. -/
def digit (n : Nibble) : Char := hexAlphabet.getD n.toNat '0'

/-- R95, R97: `hex(C)`, the string as the list of its characters, the first character first. -/
def hex (c : Code) : List Char := ['0', 'x'] ++ (List.range Config.hexDigits).map (fun j => digit (nibble c j))

end Sys2Proof.Machine
end

