-- ==== Sys2Proof/Machine/Outputs.lean ====
section
/-! DEFINITION. The output ports (spec/10_state.md R31; spec/41_code_packer.md R94, R99, R101, R102): combinational functions of
the registers alone. -/

namespace Sys2Proof.Machine

/-- R94: `code_o[39:0] = BITS`. -/
def RegFile.codeO (r : RegFile) : Code := r.bits

/-- R99: `ascii(n)`, the character code of a digit. -/
def ascii (n : Nibble) : Byte :=
  if n.toNat ≤ 9 then 0x30#8 + n.setWidth 8 else 0x41#8 + (n.setWidth 8 - 10#8)

/-- R99, R44: the 12 bytes of `hex_o`, character 0 on the most significant byte. -/
def hexBus (c : Code) : BitVec 96 :=
  0x30#8 ++ 0x78#8 ++ ascii (nibble c 0) ++ ascii (nibble c 1) ++ ascii (nibble c 2) ++ ascii (nibble c 3)
    ++ ascii (nibble c 4) ++ ascii (nibble c 5) ++ ascii (nibble c 6) ++ ascii (nibble c 7) ++ ascii (nibble c 8)
    ++ ascii (nibble c 9)

/-- R99: `hex_o`. -/
def RegFile.hexO (r : RegFile) : BitVec 96 := hexBus r.bits

/-- R31: the value on each output port. -/
def RegFile.output (r : RegFile) : OutPort → Observation
  | .len => .len r.lenO
  | .full => .full r.fullO
  | .code => .code r.codeO
  | .hex => .hex r.hexO

end Sys2Proof.Machine
end

