-- ==== Sys2Proof/Machine/Ops.lean ====
section
/-! DEFINITION. The shared operations on the registers. All reads of a cycle see the values before its edge and its writes happen
together (spec/00_scope.md R14, spec/20_memory.md R45): each operation computes the whole new register file from the old one.

There is no operation on memory (spec/20_memory.md R40) and none that takes an exception or returns from one: the block raises
none and has no trap entry, return or saved state (spec/60_exceptions.md R110, R117). What stops a run is a fault or a refusal of
the model (R112, R113); `State.stopWith` records it. -/

namespace Sys2Proof.Machine

/-- R14: `R[i] <- b` writes bit `i` of `BITS` only. -/
def setBit (v : Code) (i : Nat) (b : Bool) : Code :=
  if b then v ||| (1#40 <<< i) else v &&& ~~~(1#40 <<< i)

/-- R79: `PHASE <- NOT PHASE`. -/
def Phase.flip : Phase → Phase
  | .mark => .space
  | .space => .mark

/-- R20, R80: the phase after `n` elements of a frame, `n mod 2`. -/
def Phase.ofCount (n : Nat) : Phase := if n % 2 = 0 then .mark else .space

/-- R79: append one bit at position `LEN` where there is room; a full vector keeps its bits (R81). -/
def RegFile.appendBit (r : RegFile) (b : Bool) : RegFile :=
  if h : r.len.val < Config.maxBits then
    { r with bits := setBit r.bits r.len.val b, len := ⟨r.len.val + 1, Nat.succ_lt_succ h⟩ }
  else r

/-- R79: the registers after PUSH of the duration `d`. A mark gives no bit (R71). -/
def RegFile.pushElement (r : RegFile) (d : Nat) : RegFile :=
  match r.phase with
  | .mark => { r with phase := r.phase.flip }
  | .space => { r.appendBit (spaceBit d) with phase := r.phase.flip }

/-- R20, R78, R131: write every register with its reset value; what CLEAR and reset both do (R133). -/
def State.writeResetValues (s : State) : State := { s with regs := .ready RegFile.resetValues }

/-- The registers hold a value: R33's `Ready`. -/
def Regs.isReady : Regs → Bool
  | .uninit => false
  | .ready _ => true

/-- R104, R130: the host reads an output port. In `Ready` it sees the port's value; in `Uninit` the reading is
`fault(ReadBeforeInit)`. No register changes. -/
def observeOutput (p : OutPort) (s : State) : Host.Outcome State Fault Refusal :=
  match s.regs with
  | .uninit => .fault .readBeforeInit
  | .ready r => .next { s with observed := s.observed ++ [r.output p] }

/-- R122: a loss of power returns the block to `Uninit`. -/
def losePower (s : State) : State := { s with regs := .uninit }

/-- R112, R113: record why a step stopped, where nothing is recorded yet. The spec gives a refused step no meaning, so no register
keeps a value the model could vouch for (DESIGN CHOICE, safe: notes/assumptions/5.md). -/
def State.stopWith (s : State) (x : Stop) : State := { s with regs := .uninit, record := s.record.or (some x) }

end Sys2Proof.Machine
end

