-- ==== Sys2Proof/Machine/Commands.lean ====
section
/-! DEFINITION. The meanings of the commands (spec/40_pdm_decoder.md R77 to R79, spec/30_encoding.md R55): the family of all four
rows of the opcode table. Each is the command at a rising edge with `rst = 0`. -/

namespace Sys2Proof.Machine

/-- R77: NOP writes no register, in `Uninit` too; `dur` is ignored (R54). -/
def execNop (_dur : Nat) (s : State) : Host.Outcome State Fault Refusal := .next s

/-- R78: CLEAR writes every register, in every state; `dur` is ignored (R54). -/
def execClear (_dur : Nat) (s : State) : Host.Outcome State Fault Refusal := .next s.writeResetValues

/-- R79: PUSH presents the next element; in `Uninit` it is `fault(PushBeforeInit)`. -/
def execPush (dur : Nat) (s : State) : Host.Outcome State Fault Refusal :=
  match s.regs with
  | .uninit => .fault .pushBeforeInit
  | .ready r => .next { s with regs := .ready (r.pushElement dur) }

/-- R55, R112: the reserved command is `refuse(ReservedOp)`, in every state. -/
def execReserved (_dur : Nat) (_s : State) : Host.Outcome State Fault Refusal := .refused .reservedOp

end Sys2Proof.Machine
end

