-- ==== Sys2Proof/Machine/Dispatch.lean ====
section
/-! DEFINITION. One arm per command, each one call of its meaning. -/

namespace Sys2Proof.Machine

def exec (i : Instr) (s : State) : Host.Outcome State Fault Refusal :=
  match i with
  | .nop dur => Sys2Proof.Machine.execNop dur s
  | .clear dur => Sys2Proof.Machine.execClear dur s
  | .push dur => Sys2Proof.Machine.execPush dur s
  | .reserved dur => Sys2Proof.Machine.execReserved dur s

end Sys2Proof.Machine
end

