-- ==== Sys2Proof/Machine/Events.lean ====
section
/-! DEFINITION. What one event of the host does to the block (spec/10_state.md R30, R31; spec/70_reset_and_hazards.md R130,
R131; spec/60_exceptions.md R122). -/

namespace Sys2Proof.Machine

/-- R131, the else branch: a rising edge with `rst = 0` executes the command of the word (R53). -/
def commandEdge (cw : Nat) (s : State) : Host.Outcome State Fault Refusal :=
  match decode s.config.durW cw with
  | .error e => .refused (.badCommandWord e)
  | .ok i => exec i s

/-- One event. R116, R131: with `rst = 1` reset wins and the command word is ignored whatever it is. -/
def hostEvent (e : HostEvent) (s : State) : Host.Outcome State Fault Refusal :=
  match e with
  | .edge true _ => .next s.writeResetValues
  | .edge false cw => commandEdge cw s
  | .observe p => observeOutput p s
  | .powerLoss => .next (losePower s)

/-- One step: the host's next event happens. With no further event there is no rising edge, and no register changes (R30, R122:
`clk` is stopped). -/
def stepEvent (s : State) : Host.Outcome State Fault Refusal :=
  match s.inputs with
  | [] => .next s
  | e :: rest => hostEvent e { s with inputs := rest }

/-- The state in which the next event is a rising edge with `rst = 0` and the command word `w` of the opcode table. The table's
words are for the default `DUR_W` (R9, R51), so the instance is one of that width. -/
def presentWord (s : State) (w : Nat) : State :=
  { s with config := Config.standard, inputs := .edge false w :: s.inputs }

end Sys2Proof.Machine
end

