-- ==== Sys2Proof/Machine/Step.lean ====
section
/-! DEFINITION. The step. The block does not fetch (spec/10_state.md R25): the host presents one command per cycle, so a step
takes the next event of the host's stream. -/

namespace Sys2Proof.Machine

/-- One step of the machine. -/
def step (s : State) : Host.Outcome State Fault Refusal := stepEvent s

/-- `s` with the command word `w` next on the input ports, `rst = 0`. -/
def State.withFetchWord (s : State) (_nbits w : Nat) : State := presentWord s w

end Sys2Proof.Machine
end

