-- ==== Sys2Proof/Machine/Assembler.lean ====
section
/-! DEFINITION. The command stream's listing (spec/30_encoding.md R57, R58): the text syntax, and the events an assembled listing
makes the host present. It is the host's side; no step depends on it. -/

namespace Sys2Proof.Machine

/-- One line of a listing: a command (R57), the pseudo-instruction `pair` or the directive `.reset` (R58). -/
inductive AsmLine where
  | nop
  | clear
  | push (d : Nat)
  | pair (m s : Nat)
  | reset
deriving DecidableEq, Repr

/-- Why the assembler refuses a listing. -/
inductive AsmError where
  /-- No line of R57 or R58 has this form. -/
  | badLine
  /-- A literal is not a decimal or `0x` hexadecimal number (R57). -/
  | badNumber
  /-- A `.repeat` block is closed without being open, or is left open (R58). -/
  | badRepeat
  /-- The operand is at or above `2^DUR_W` (R57). -/
  | code (e : CodeError)
deriving DecidableEq, Repr

/-- R57: the edge that presents one command, with `rst = 0`. -/
def commandEvent (durW : Nat) (i : Instr) : Except AsmError HostEvent :=
  match encode durW i with
  | .ok cw => .ok (.edge false cw)
  | .error e => .error (.code e)

/-- R57, R58: the events of one line; `cmd_dur = 0` for `nop` and `clear`, the word `0x000000000` for `.reset`. -/
def AsmLine.events (durW : Nat) : AsmLine → Except AsmError (List HostEvent)
  | .nop => do return [← commandEvent durW (.nop 0)]
  | .clear => do return [← commandEvent durW (.clear 0)]
  | .push d => do return [← commandEvent durW (.push d)]
  | .pair m s => do return [← commandEvent durW (.push m), ← commandEvent durW (.push s)]
  | .reset => .ok [.edge true 0]

/-- The events of a listing, line by line in order. -/
def assemble (durW : Nat) : List AsmLine → Except AsmError (List HostEvent)
  | [] => .ok []
  | l :: rest => do return (← l.events durW) ++ (← assemble durW rest)

/-- The opening brace of a `.repeat` block (R58). -/
def openBrace : Char := Char.ofNat 0x7B

/-- The closing brace of a `.repeat` block (R58). -/
def closeBrace : Char := Char.ofNat 0x7D

/-- A word read so far, put before the rest of a line's words. -/
def flushWord (word : List Char) (rest : List (List Char)) : List (List Char) :=
  if word.isEmpty then rest else word :: rest

/-- The words of a line; `;` starts a comment (R57). The spec is silent on spacing: that spaces, tabs and carriage returns part words,
and that a comma and the braces are words of their own, is the model's choice (DESIGN CHOICE, safe: notes/assumptions/10.md). -/
def lineWords (word : List Char) : List Char → List (List Char)
  | [] => flushWord word []
  | c :: rest =>
    if c = ';' then flushWord word []
    else if c = ' ' || c = '\t' || c = '\r' then flushWord word (lineWords [] rest)
    else if c = ',' || c = openBrace || c = closeBrace then flushWord word ([c] :: lineWords [] rest)
    else lineWords (word ++ [c]) rest

/-- The value of a decimal digit, or of a hexadecimal digit of either case (DESIGN CHOICE, safe: notes/assumptions/10.md). -/
def digitValue (base : Nat) (c : Char) : Option Nat :=
  let v :=
    if '0' ≤ c ∧ c ≤ '9' then c.toNat - '0'.toNat
    else if 'a' ≤ c ∧ c ≤ 'f' then c.toNat - 'a'.toNat + 10
    else if 'A' ≤ c ∧ c ≤ 'F' then c.toNat - 'A'.toNat + 10
    else base
  if v < base then some v else none

/-- The number of a run of digits, the most significant first. -/
def digitsValue (base : Nat) (acc : Nat) : List Char → Option Nat
  | [] => some acc
  | c :: rest => do digitsValue base (acc * base + (← digitValue base c)) rest

/-- R57: a decimal literal or a `0x` hexadecimal literal. -/
def number (word : List Char) : Except AsmError Nat :=
  match word with
  | '0' :: 'x' :: d :: rest => ((digitsValue 16 0 (d :: rest)).map Except.ok).getD (.error .badNumber)
  | d :: rest => ((digitsValue 10 0 (d :: rest)).map Except.ok).getD (.error .badNumber)
  | [] => .error .badNumber

/-- What one line of text is. -/
inductive LineItem where
  | blank
  | line (l : AsmLine)
  | openRepeat (n : Nat)
  | closeRepeat
deriving DecidableEq, Repr

/-- R57, R58: a line's words read as a command, a directive or nothing. R58 does not say which literals the count `<n>` of `.repeat`
may be: the model takes any literal that R57 gives `<d>`, decimal or `0x`, of any size, 0 included (DESIGN CHOICE, safe:
notes/assumptions/10.md). -/
def lineItem (words : List (List Char)) : Except AsmError LineItem :=
  match words with
  | [] => .ok .blank
  | [w] =>
    if w = "nop".toList then .ok (.line .nop)
    else if w = "clear".toList then .ok (.line .clear)
    else if w = ".reset".toList then .ok (.line .reset)
    else if w = [closeBrace] then .ok .closeRepeat
    else .error .badLine
  | [w, d] => if w = "push".toList then do return .line (.push (← number d)) else .error .badLine
  | [w, n, b] =>
    if w = ".repeat".toList ∧ b = [openBrace] then do return .openRepeat (← number n) else .error .badLine
  | [w, m, comma, s] =>
    if w = "pair".toList ∧ comma = [','] then do return .line (.pair (← number m) (← number s)) else .error .badLine
  | _ => .error .badLine

/-- R58: `.repeat` written out. `outer` holds, innermost block first, each open block's count and the lines before it; `lines` the
lines of the innermost block so far. -/
def writeOut (outer : List (Nat × List AsmLine)) (lines : List AsmLine) : List LineItem → Except AsmError (List AsmLine)
  | [] => if outer.isEmpty then .ok lines else .error .badRepeat
  | .blank :: rest => writeOut outer lines rest
  | .line l :: rest => writeOut outer (lines ++ [l]) rest
  | .openRepeat n :: rest => writeOut ((n, lines) :: outer) [] rest
  | .closeRepeat :: rest =>
    match outer with
    | [] => .error .badRepeat
    | (n, before) :: outer' => writeOut outer' (before ++ (List.replicate n lines).flatten) rest

/-- The lines of a text. A line feed ends a line (DESIGN CHOICE, safe: notes/assumptions/10.md). -/
def textLines (line : List Char) : List Char → List (List Char)
  | [] => [line]
  | c :: rest => if c = '\n' then line :: textLines [] rest else textLines (line ++ [c]) rest

/-- A listing's text read into its lines, with `.repeat` written out. -/
def parseListing (text : String) : Except AsmError (List AsmLine) := do
  writeOut [] [] (← (textLines [] text.toList).mapM (fun l => lineItem (lineWords [] l)))

/-- R57, R58: the assembler, from a listing's text to the events the host presents. -/
def assembleText (durW : Nat) (text : String) : Except AsmError (List HostEvent) := do
  assemble durW (← parseListing text)

/-- R57: a word of the default `DUR_W` written as nine hexadecimal digits. -/
def wordText (cw : Nat) : List Char :=
  ['0', 'x'] ++ (List.range 9).map (fun j => digit (BitVec.ofNat 4 (cw >>> (32 - 4 * j))))

end Sys2Proof.Machine
end

