-- ==== Sys2Proof/Machine/Run.lean ====
section
/-! DEFINITION. Runs. `Host.Core.run` stops at the first fault or refusal; the spec instead records it in the state and never
clears it (spec/60_exceptions.md R112, R113; the last rows of spec/95_test_vectors.md 2.5): `State.tick` is that run's step. -/

namespace Sys2Proof.Machine

/-- The step of a run that goes on after a stop: the event that stopped is used up and the stop is recorded (R112, R113). -/
def State.tick (s : State) : State :=
  match step s with
  | .next t => t
  | .fault f => { s with inputs := s.inputs.tail }.stopWith (.fault f)
  | .refused r => { s with inputs := s.inputs.tail }.stopWith (.refusal r)

/-- `n` ticks. -/
def State.ticks : Nat → State → State
  | 0, s => s
  | n + 1, s => State.ticks n s.tick

/-- Commands in the order the host presents them (R45, R46), stopping at the first fault or refusal. -/
def runCommands : List Instr → State → Host.Outcome State Fault Refusal
  | [], s => .next s
  | i :: rest, s =>
    match exec i s with
    | .next t => runCommands rest t
    | .fault f => .fault f
    | .refused r => .refused r

/-- The commands of a list of words; none where a number is no command word. -/
def commandsOf (durW : Nat) : List Nat → Option (List Instr)
  | [] => some []
  | cw :: rest =>
    match decode durW cw, commandsOf durW rest with
    | .ok i, some is => some (i :: is)
    | _, _ => none

/-- The words present a frame with payload `P` (R80): without its NOPs the stream is one CLEAR and then a PUSH of each element. -/
def presentsFrame (durW : Nat) (payload : List Nat) (cws : List Nat) : Prop :=
  ∃ is clearDur, commandsOf durW cws = some is ∧
    is.filter (fun i => !i.isNop) = Instr.clear clearDur :: payload.map Instr.push

/-- R113: a state with a recorded fault or refusal is never the final state of a run; a run is over when the host has nothing
more to present. -/
def State.isFinal (s : State) : Bool := s.inputs.isEmpty && s.record.isNone

end Sys2Proof.Machine
end

