-- ==== Sys2Proof/Safety.lean ====
section
/-! DEFINITION. What counts as a safe run: the invariant of the registers (spec/10_state.md R22), and those duties of the host
whose breach stops a run (spec/70_reset_and_hazards.md R134, R139). -/

namespace Sys2Proof.Machine

/-- R22: `BITS[i] = 0` for every `i >= LEN`. -/
def RegFile.zeroAboveLen (r : RegFile) : Prop := ∀ i, r.len.val ≤ i → r.bits.getLsbD i = false

/-- R22 of the registers, where they hold a value. -/
def Regs.zeroAboveLen : Regs → Prop
  | .uninit => True
  | .ready r => r.zeroAboveLen

/-- The machine's invariant: R22, and R9's bound on the parameter. -/
structure State.Inv (s : State) : Prop where
  validConfig : s.config.valid = true
  zeroAboveLen : s.regs.zeroAboveLen

/-- The first `LEN` bits of `BITS` as a BitVector (R20, R21). -/
def RegFile.vector (r : RegFile) : List Bool := (List.range r.len.val).map r.bits.getLsbD

/-- R130, R134, R139: the host keeps, for the rest of its stream, the duties whose breach stops a run, given whether the block is
initialised: it never presents `op = 11` with `rst = 0`, it presents only command words (notes/assumptions/8.md), and a reset edge or
CLEAR comes before any PUSH or reading (again after a loss of power, R122 and notes/assumptions/6.md). The duties that stop nothing
when broken (CLEAR before every later frame, no leader, every element once and in order) are not asked here: R136 to R138 say what
their breach gives. -/
def hostKeepsDuties (durW : Nat) : (initialised : Bool) → List HostEvent → Bool
  | _, [] => true
  | _, .edge true _ :: rest => hostKeepsDuties durW true rest
  | init, .edge false cw :: rest =>
    match decode durW cw with
    | .error _ => false
    | .ok (.nop _) => hostKeepsDuties durW init rest
    | .ok (.clear _) => hostKeepsDuties durW true rest
    | .ok (.push _) => init && hostKeepsDuties durW init rest
    | .ok (.reserved _) => false
  | init, .observe _ :: rest => init && hostKeepsDuties durW init rest
  | _, .powerLoss :: rest => hostKeepsDuties durW false rest

end Sys2Proof.Machine
end

