-- ==== Sys2Proof/Certificates/Slice0/Obligations.lean ====
section
/-! DEFINITION. The statements for the provers. The spec's numbers (850, 40, the opcodes) are written out, not taken from
Sys2Proof/Config.lean, so that a wrong constant of the model makes a statement false. `w` is `DUR_W` where no state gives it. -/

open Sys2Proof Sys2Proof.Machine

/-! ### The command word and the opcode map -/

/-- R59 (and R57 for the syntax): every line of the table assembles to its word, and the word decodes to the line's command. -/
def Obligations.EncodingExamplesOfTheSpec : Prop :=
  (∀ row ∈ [("push 400", 0x200000190, Instr.push 400), ("push 1300", 0x200000514, .push 1300),
        ("push 850", 0x200000352, .push 850), ("push 851", 0x200000353, .push 851),
        ("push 560", 0x200000230, .push 560), ("push 1690", 0x20000069A, .push 1690),
        ("push 0", 0x200000000, .push 0), ("push 4294967295", 0x2FFFFFFFF, .push 4294967295),
        ("clear", 0x100000000, .clear 0), ("nop", 0x000000000, .nop 0)],
      assembleText 32 row.1 = .ok [.edge false row.2.1] ∧ decode 32 row.2.1 = .ok row.2.2)

/-- R50 to R53: every well-formed command has a command word, and the decoder reads the command back from it, with every
duration the port admits and for every `DUR_W`. -/
def Obligations.DecodeOfEncodeIsTheCommand : Prop :=
  ∀ (w : Nat) (i : Instr), i.wf w = true →
    ∃ cw, encode w i = .ok cw ∧ cw < 2 ^ (w + 2) ∧ decode w cw = .ok i

/-- R50 to R53: each command word has one meaning: the command read from it is well-formed and its word is that word. -/
def Obligations.EncodeOfDecodeIsTheWord : Prop :=
  ∀ (w cw : Nat), cw < 2 ^ (w + 2) →
    ∃ i, decode w cw = .ok i ∧ i.wf w = true ∧ encode w i = .ok cw

/-- R53: at the default width the opcode map's rows are the four of the table, and at every width exactly one row selects each
command word, the row of the command the decoder reads. -/
def Obligations.OpcodeMapIsTotalAndUnambiguous : Prop :=
  (opcodeTable 32 =
    [⟨"NOP", 0x000000000, 0x300000000⟩, ⟨"CLEAR", 0x100000000, 0x300000000⟩,
     ⟨"PUSH", 0x200000000, 0x300000000⟩, ⟨"RESERVED", 0x300000000, 0x300000000⟩]) ∧
  ∀ (w cw : Nat), cw < 2 ^ (w + 2) →
    ∃ i row, decode w cw = .ok i ∧ row ∈ opcodeTable w ∧ row.selects cw = true ∧ row.mnemonic = i.mnemonic ∧
      ∀ other ∈ opcodeTable w, other.selects cw = true → other = row

/-- R52: the operand of a decoded command is the sum over `k < DUR_W` of `cmd_dur[k] * 2^k`, in the range 0 to `2^DUR_W - 1`. -/
def Obligations.OperandIsTheSumOfThePortBits : Prop :=
  ∀ (w cw : Nat) (i : Instr), decode w cw = .ok i →
    i.dur = ((List.range w).map (fun k => (cw.testBit k).toNat * 2 ^ k)).sum ∧ i.dur ≤ 2 ^ w - 1

/-! ### The step -/

/-- R25, R50, R131: a rising edge with `rst = 0` executes the command its word decodes to, and uses up that event of the host's
stream and nothing else. -/
def Obligations.StepRunsTheDecodedCommand : Prop :=
  ∀ (s : State) (cw : Nat) (rest : List HostEvent) (i : Instr),
    s.inputs = .edge false cw :: rest → decode s.config.durW cw = .ok i →
    step s = exec i { s with inputs := rest }

/-- The word placed by `withFetchWord` is what the next step runs (notes/assumptions/3.md: the model's interface). -/
def Obligations.FetchWordIsRunNext : Prop :=
  ∀ (s : State) (n cw : Nat) (i : Instr), decodeTableWord n cw = some i →
    step (s.withFetchWord n cw) = exec i { s with config := Config.standard }

/-- R131: at a rising edge with `rst = 1` the block writes the reset values whatever the command word; with `rst = 0` it executes
the command; a recorded refusal or fault is kept. -/
def Obligations.ResetEdgeWritesResetValues : Prop :=
  (∀ (s : State) (cw : Nat) (rest : List HostEvent), s.inputs = .edge true cw :: rest →
    step s = .next { s with regs := .ready ⟨0x0000000000#40, 0, .mark⟩, inputs := rest }) ∧
  (∀ (s : State) (cw : Nat) (rest : List HostEvent) (i : Instr), s.inputs = .edge false cw :: rest →
    decode s.config.durW cw = .ok i → step s = exec i { s with inputs := rest }) ∧
  (∀ (s : State) (cw : Nat) (rest : List HostEvent) (x : Stop), s.inputs = .edge true cw :: rest →
    s.record = some x → s.tick.record = some x)

/-- R132: `rst` held high for one or more edges gives the reset values; in the cycle in which it is first sampled high the outputs
show the state before, and the reset values from the next. -/
def Obligations.ResetHeldHighKeepsResetValues : Prop :=
  (∀ (s : State) (cw : Nat) (cws : List Nat) (rest : List HostEvent),
    s.inputs = (cw :: cws).map (HostEvent.edge true) ++ rest →
    Host.Core.run Sys2Proof.core (cws.length + 1) s =
      .next { s with regs := .ready ⟨0x0000000000#40, 0, .mark⟩, inputs := rest }) ∧
  (∀ (s : State) (r : RegFile) (cw : Nat) (p : OutPort) (rest : List HostEvent), s.regs = .ready r →
    s.inputs = .observe p :: .edge true cw :: .observe p :: rest →
    Host.Core.run Sys2Proof.core 3 s =
      .next { s with regs := .ready ⟨0x0000000000#40, 0, .mark⟩, inputs := rest,
                     observed := s.observed ++ [r.output p, RegFile.output ⟨0x0000000000#40, 0, .mark⟩ p] })

/-- R20, R131: what reset leaves: the registers' reset values. The other clauses are the model's own choices about `State.reset`: nothing
recorded (notes/assumptions/2.md: R131 clears no recorded stop, and `State.reset` is a run that has had none), the default `DUR_W`
(notes/assumptions/1.md), an empty stream (3.md) and no readings (7.md). -/
def Obligations.ResetStateHoldsResetValues : Prop :=
  State.reset.regs = .ready { bits := 0x0000000000#40, len := 0, phase := .mark } ∧ State.reset.record = none ∧
    State.reset.config.durW = 32 ∧ State.reset.inputs = [] ∧ State.reset.observed = []

/-- R133: reset gives the same state as CLEAR. -/
def Obligations.ResetAndClearGiveTheSameState : Prop :=
  ∀ (s : State) (cw d : Nat) (rest : List HostEvent), s.inputs = .edge true cw :: rest →
    ∃ t, step s = .next t ∧ exec (.clear d) { s with inputs := rest } = .next t

/-- R130: in `Uninit` a NOP leaves `Uninit`, a CLEAR gives the CLEAR state, a PUSH is `fault(PushBeforeInit)`, an edge with
`rst = 1` gives the reset state and a reading of any output is `fault(ReadBeforeInit)`; a machine powers on in `Uninit`. -/
def Obligations.UninitialisedBlock : Prop :=
  State.powerOn.regs = .uninit ∧
  ∀ (s : State), s.regs = .uninit →
    (∀ d, exec (.nop d) s = .next s) ∧
    (∀ d, exec (.clear d) s = .next { s with regs := .ready ⟨0x0000000000#40, 0, .mark⟩ }) ∧
    (∀ d, exec (.push d) s = .fault .pushBeforeInit) ∧
    (∀ cw rest, s.inputs = .edge true cw :: rest →
      step s = .next { s with regs := .ready ⟨0x0000000000#40, 0, .mark⟩, inputs := rest }) ∧
    (∀ p rest, s.inputs = .observe p :: rest → step s = .fault .readBeforeInit)

/-- R122: a loss of power returns the block to `Uninit`, and while no edge arrives no register changes. That a recorded stop
survives the loss of power is the model's reading of R112 (notes/assumptions/6.md). -/
def Obligations.PowerLossAndStoppedClock : Prop :=
  (∀ (s : State) (rest : List HostEvent), s.inputs = .powerLoss :: rest →
    step s = .next { s with regs := .uninit, inputs := rest }) ∧
  (∀ (s : State), s.inputs = [] → step s = .next s)

/-! ### The commands -/

/-- R77: NOP writes no register, in every state; its encoding is `op = 00` with any `dur`. -/
def Obligations.NopWritesNothing : Prop :=
  (∀ (d : Nat) (s : State), exec (.nop d) s = .next s) ∧
  (∀ (w d : Nat), d < 2 ^ w → decode w (0 * 2 ^ w + d) = .ok (.nop d))

/-- R78: CLEAR writes all three registers with 0, in every state, and nothing else; its encoding is `op = 01` with any `dur`. -/
def Obligations.ClearWritesAllRegisters : Prop :=
  (∀ (d : Nat) (s : State),
    exec (.clear d) s = .next { s with regs := .ready ⟨0x0000000000#40, 0, .mark⟩ }) ∧
  (∀ (w d : Nat), d < 2 ^ w → decode w (1 * 2 ^ w + d) = .ok (.clear d)) ∧
  (RegFile.lenO ⟨0x0000000000#40, 0, .mark⟩ = 0#6 ∧ RegFile.fullO ⟨0x0000000000#40, 0, .mark⟩ = 0#1)

/-- R79: PUSH, whole: the fault in `Uninit`; a mark; a space with room, whose bit goes to position `LEN` and no other; a space
after the vector is full; what `len_o` and `full_o` become; and the encoding. Everything of the state but the registers is
unchanged. -/
def Obligations.PushPresentsTheNextElement : Prop :=
  (∀ (w d : Nat), d < 2 ^ w → decode w (2 * 2 ^ w + d) = .ok (.push d)) ∧
  (∀ (d : Nat) (s : State), s.regs = .uninit → exec (.push d) s = .fault .pushBeforeInit) ∧
  ∀ (d : Nat) (s : State) (r : RegFile), s.regs = .ready r →
    (r.phase = .mark → exec (.push d) s = .next { s with regs := .ready { r with phase := .space } }) ∧
    (r.phase = .space → r.len.val < 40 →
      ∃ r', exec (.push d) s = .next { s with regs := .ready r' } ∧ r'.phase = .mark ∧
        r'.len.val = r.len.val + 1 ∧ r'.lenO = r.lenO + 1#6 ∧ (r'.fullO = 1#1 ↔ r.len.val = 39) ∧
        ∀ k < 40, r'.bits.getLsbD k = if k = r.len.val then decide (850 < d) else r.bits.getLsbD k) ∧
    (r.phase = .space → r.len.val = 40 → exec (.push d) s = .next { s with regs := .ready { r with phase := .mark } })

/-- R55: the reserved command has no meaning with `rst = 0`, in every state; with `rst = 1` its word is ignored. -/
def Obligations.ReservedCommandIsRefused : Prop :=
  (∀ (d : Nat) (s : State), exec (.reserved d) s = .refused .reservedOp) ∧
  (∀ (w d : Nat), d < 2 ^ w → decode w (3 * 2 ^ w + d) = .ok (.reserved d)) ∧
  (∀ (s : State) (d : Nat) (rest : List HostEvent), s.inputs = .edge true (3 * 2 ^ s.config.durW + d) :: rest →
    step s = .next { s with regs := .ready ⟨0x0000000000#40, 0, .mark⟩, inputs := rest })

/-- R54: every value of `cmd_dur` gives the same behaviour of NOP and of CLEAR: two words with `op = 00`, or two with
`op = 01`, are the same step. -/
def Obligations.DurFieldOfNopAndClearIsIgnored : Prop :=
  ∀ (s : State) (op d d' : Nat) (rest : List HostEvent), op = 0 ∨ op = 1 →
    d < 2 ^ s.config.durW → d' < 2 ^ s.config.durW →
    step { s with inputs := .edge false (op * 2 ^ s.config.durW + d) :: rest } =
      step { s with inputs := .edge false (op * 2 ^ s.config.durW + d') :: rest }

/-- R110, R118: in `Ready` every command but the reserved one completes, whatever its operand, and changes only the registers. -/
def Obligations.EveryCommandCompletesWhenReady : Prop :=
  ∀ (i : Instr) (s : State) (r : RegFile), s.regs = .ready r → (∀ d, i ≠ .reserved d) →
    ∃ r', exec i s = .next { s with regs := .ready r' }

/-- R20, R45: the frame of the commands: where a command gives a next state, only the registers may differ. -/
def Obligations.CommandsWriteOnlyTheRegisters : Prop :=
  ∀ (i : Instr) (s t : State), exec i s = .next t → t = { s with regs := t.regs }

/-- R20, R31: the frame of every step: where it answers a next state, a step that reads an output leaves the registers (R31). The rest
is the model's own: the parameter is kept (notes/assumptions/1.md), one event is used up (3.md), at most one reading is remembered
(7.md), and the record is kept, by a reset edge and CLEAR as R112 says and by a loss of power as 6.md chooses. -/
def Obligations.StepFrame : Prop :=
  ∀ (s t : State), step s = .next t →
    t.config = s.config ∧ t.record = s.record ∧ t.inputs = s.inputs.tail ∧
      ∃ seen, t.observed = s.observed ++ seen ∧ seen.length ≤ 1 ∧ (seen ≠ [] → t.regs = s.regs)

/-- R20, R78, R79, R122, R131: only a reset edge, CLEAR, PUSH or a loss of power changes a register. -/
def Obligations.OnlyResetClearPushAndPowerLossWriteRegisters : Prop :=
  ∀ (s t : State), step s = .next t → t.regs ≠ s.regs →
    ∃ e rest, s.inputs = e :: rest ∧
      ((∃ cw, e = .edge true cw) ∨ e = .powerLoss ∨
        ∃ cw d, e = .edge false cw ∧
          (decode s.config.durW cw = .ok (.clear d) ∨ decode s.config.durW cw = .ok (.push d)))

/-- R23: from one state with values to the next, `LEN` is kept, or a PUSH increments it while it is below 40, or CLEAR or a reset
edge makes it 0. -/
def Obligations.LenMovesOnlyByPushClearAndReset : Prop :=
  ∀ (s t : State) (r r' : RegFile), step s = .next t → s.regs = .ready r → t.regs = .ready r' →
    r'.len = r.len ∨
    (r.len.val < 40 ∧ r'.len.val = r.len.val + 1 ∧
      ∃ cw d rest, s.inputs = .edge false cw :: rest ∧ decode s.config.durW cw = .ok (.push d)) ∨
    (r'.len.val = 0 ∧ ∃ b cw rest, s.inputs = .edge b cw :: rest ∧
      (b = true ∨ ∃ d, decode s.config.durW cw = .ok (.clear d)))

/-- R81: once `LEN = 40`, NOPs and PUSHes in any number change neither `BITS` nor `LEN`: each PUSH toggles `PHASE`, which no output
shows and which the next CLEAR or reset edge overwrites; and `full_o` is 1. -/
def Obligations.FullVectorIsKeptUntilClearOrReset : Prop :=
  ∀ (is : List Instr) (s : State) (r : RegFile), s.regs = .ready r → r.len.val = 40 →
    (∀ i ∈ is, (∃ d, i = .nop d) ∨ ∃ d, i = .push d) →
    r.fullO = 1#1 ∧
    (∃ p, runCommands is s = .next { s with regs := .ready { r with phase := p } } ∧
      (p = r.phase ↔ (is.filter (fun i => !i.isNop)).length % 2 = 0) ∧
      ∀ port, RegFile.output { r with phase := p } port = r.output port) ∧
    (∀ d, runCommands (is ++ [.clear d]) s = .next { s with regs := .ready ⟨0x0000000000#40, 0, .mark⟩ }) ∧
    ∀ p cw rest, step { s with regs := .ready { r with phase := p }, inputs := .edge true cw :: rest } =
      .next { s with regs := .ready ⟨0x0000000000#40, 0, .mark⟩, inputs := rest }

/-- R29: no output depends on `PHASE`, and the next PUSH shows it: it increments `LEN` exactly at `PHASE = 1` with `LEN < 40`, and
else leaves `LEN`. -/
def Obligations.PhaseShowsOnlyInTheNextPush : Prop :=
  (∀ (r : RegFile) (p : Phase) (port : OutPort), RegFile.output { r with phase := p } port = r.output port) ∧
  ∀ (s : State) (r : RegFile) (d : Nat), s.regs = .ready r →
    ∃ r', exec (.push d) s = .next { s with regs := .ready r' } ∧
      r'.len.val = r.len.val + if r.phase = .space ∧ r.len.val < 40 then 1 else 0

/-- R82: the registers after a command sequence are a function of the sequence alone: after a CLEAR they do not depend on the state
before it; and before the first CLEAR or reset a machine in `Uninit` stays there, or a PUSH faults, or the reserved command is
refused. -/
def Obligations.CommandSequenceDeterminesTheRegisters : Prop :=
  (∀ (is : List Instr) (d : Nat) (s s' t : State), runCommands (.clear d :: is) s = .next t →
    ∃ t', runCommands (.clear d :: is) s' = .next t' ∧ t'.regs = t.regs) ∧
  ∀ (is : List Instr) (s : State), s.regs = .uninit → (∀ i ∈ is, ∀ d, i ≠ .clear d) →
    runCommands is s = .next s ∨ runCommands is s = .fault .pushBeforeInit ∨ runCommands is s = .refused .reservedOp

/-! ### The invariant of the registers -/

/-- R22: the invariant at reset, and at power-on. -/
def Obligations.InvariantHoldsAtReset : Prop := State.reset.Inv ∧ State.powerOn.Inv

/-- R22, R9: every step keeps `BITS[i] = 0` for `i >= LEN` and the bound on the parameter, from every state that has them. -/
def Obligations.EveryStepKeepsTheInvariant : Prop :=
  ∀ (s t : State), s.Inv → step s = .next t → t.Inv

/-- R22: in every state reached from a reset edge or a CLEAR, from whatever state, `BITS[i] = 0` for every `i >= LEN`, so `BITS` is
the packed value of its first `LEN` bits; and a PUSH writes no bit but bit `LEN`. -/
def Obligations.ReachedBitsArePackedFirstLenBits : Prop :=
  (∀ (s : State) (b : Bool) (cw : Nat) (rest : List HostEvent), s.inputs = .edge b cw :: rest →
    (b = true ∨ ∃ d, decode s.config.durW cw = .ok (.clear d)) →
    ∀ (n : Nat) (t : State) (r : RegFile), Host.Core.run Sys2Proof.core (n + 1) s = .next t → t.regs = .ready r →
      (∀ k, r.len.val ≤ k → k < 40 → r.bits.getLsbD k = false) ∧ r.bits = pack r.vector) ∧
  ∀ (s : State) (r : RegFile) (d : Nat), s.regs = .ready r →
    ∃ r', exec (.push d) s = .next { s with regs := .ready r' } ∧
      ∀ k < 40, k ≠ r.len.val → r'.bits.getLsbD k = r.bits.getLsbD k

/-! ### The reference functions, and the commands compute them -/

/-- R76: the length and every bit of `decode(P)`. -/
def Obligations.DecodedLengthAndBits : Prop :=
  ∀ (P : List Nat), (decodePayload P).length = min (P.length / 2) 40 ∧
    ∀ k < (decodePayload P).length, ∃ space, P[2 * k + 1]? = some space ∧
      (decodePayload P)[k]? = some (decide (850 < space))

/-- R71: two payloads of one length that differ only at even indices decode to the same BitVector. -/
def Obligations.MarksNeverAffectTheResult : Prop :=
  ∀ (P Q : List Nat), P.length = Q.length → (∀ k, k % 2 = 1 → P[k]? = Q[k]?) → decodePayload P = decodePayload Q

/-- R72: a payload of fewer than two elements decodes to the empty BitVector. -/
def Obligations.ShortPayloadDecodesToNothing : Prop :=
  ∀ (P : List Nat), P.length < 2 → decodePayload P = []

/-- R73: at most 40 bits come out, from the first 40 spaces; every element from index 80 on is ignored. -/
def Obligations.DecodeStopsAtFortyBits : Prop :=
  ∀ (P Q : List Nat), (decodePayload P).length ≤ 40 ∧
    (P.length = 80 → decodePayload (P ++ Q) = decodePayload P ∧ (decodePayload P).length = 40)

/-- R74: every space from 0 to 850 gives 0 and every space from 851 up gives 1. -/
def Obligations.ThresholdIsStrict : Prop :=
  ∀ (m s : Nat), (s ≤ 850 → decodePayload [m, s] = [false]) ∧ (851 ≤ s → decodePayload [m, s] = [true])

/-- R75: a trailing mark with no space is ignored. -/
def Obligations.TrailingMarkIsIgnored : Prop :=
  ∀ (P : List Nat) (m : Nat), P.length % 2 = 0 → decodePayload (P ++ [m]) = decodePayload P

/-- R90: the Code of a BitVector of at most 40 bits is the sum over `k` of `B[k] * 2^k`, which stays below `2^40`. -/
def Obligations.PackIsTheSumOfBitValues : Prop :=
  ∀ (B : List Bool), B.length ≤ 40 →
    (pack B).toNat = ((List.range B.length).map (fun k => (B.getD k false).toNat * 2 ^ k)).sum ∧
    ((List.range B.length).map (fun k => (B.getD k false).toNat * 2 ^ k)).sum < 2 ^ 40

/-- R91: the first bit of the vector is bit 0 of the Code, so a vector that begins with 1 packs to an odd value. -/
def Obligations.FirstBitDecidesParity : Prop :=
  ∀ (b : Bool) (B : List Bool), B.length < 40 →
    (pack (b :: B)).getLsbD 0 = b ∧ ((pack (b :: B)).toNat % 2 = 1 ↔ b = true)

/-- R92: bit `k` of the Code is bit `k` of the vector, and every bit from the vector's length to 39 is 0. -/
def Obligations.ShortVectorIsZeroPadded : Prop :=
  pack [] = 0#40 ∧
  ∀ (B : List Bool), B.length ≤ 40 → ∀ k < 40, (pack B).getLsbD k = if k < B.length then B.getD k false else false

/-- R93: BitVectors that differ only by trailing zero bits have one Code and one string. -/
def Obligations.TrailingZerosKeepTheCode : Prop :=
  ∀ (B : List Bool) (n : Nat), B.length + n ≤ 40 →
    pack (B ++ List.replicate n false) = pack B ∧ hex (pack (B ++ List.replicate n false)) = hex (pack B)

/-- R95, R97: the string has 12 characters, `0x` and then for each `j` from 0 to 9 the digit of Code bits `39-4j` to `36-4j`, one of
`0123456789ABCDEF`. -/
def Obligations.RenderingIsTenUpperCaseDigits : Prop :=
  ∀ (c : Code), (hex c).length = 12 ∧ (hex c).take 2 = ['0', 'x'] ∧
    ∀ j < 10, (hex c)[2 + j]? = "0123456789ABCDEF".toList[c.toNat / 2 ^ (36 - 4 * j) % 16]?

/-- R98: two Codes are equal exactly when their strings are, every string has exactly 10 digits, and the strings of 0 and of
`2^40 - 1`. -/
def Obligations.RenderingIsInjective : Prop :=
  (∀ (c c' : Code), hex c = hex c' ↔ c = c') ∧ (∀ (c : Code), ((hex c).drop 2).length = 10) ∧
  hex 0x0000000000#40 = "0x0000000000".toList ∧ hex 0xFFFFFFFFFF#40 = "0xFFFFFFFFFF".toList

/-- R44: character `j` of the string is on `hex_o[95-8j : 88-8j]`. That the byte is the character's ASCII code is R99's, which the spec
supplies from general knowledge (notes/assumptions/11.md, PRESUMED). -/
def Obligations.HexBusCarriesTheString : Prop :=
  ∀ (c : Code), ∀ j < 12, ∃ ch, (hex c)[j]? = some ch ∧ (hexBus c).extractLsb' (88 - 8 * j) 8 = BitVec.ofNat 8 ch.toNat

/-- R100: `hex_o` worked in full for Code 3, the last byte for Code `0xA`, and the ten digit bytes for `0xFFFFFFFFFF`. The bytes rest on
the character codes of R99, which the spec supplies from general knowledge (notes/assumptions/11.md, PRESUMED). -/
def Obligations.HexBusWorkedExamples : Prop :=
  hexBus 0x0000000003#40 = 0x307830303030303030303033#96 ∧
  (hexBus 0x000000000A#40).extractLsb' 0 8 = 0x41#8 ∧
  ∀ j < 10, (hexBus 0xFFFFFFFFFF#40).extractLsb' (8 * j) 8 = 0x46#8

/-- R31: a reading of each output port in `Ready` gives its value as a function of the registers alone, and changes nothing but the
model's list of readings (notes/assumptions/7.md). The codes of the characters on `hex_o` are ASCII's (notes/assumptions/11.md,
PRESUMED). -/
def Obligations.OutputsShowTheRegisters : Prop :=
  ∀ (s : State) (r : RegFile) (p : OutPort) (rest : List HostEvent), s.regs = .ready r → s.inputs = .observe p :: rest →
    ∃ o, step s = .next { s with inputs := rest, observed := s.observed ++ [o] } ∧
      match p with
      | .len => ∃ v, o = .len v ∧ v.toNat = r.len.val
      | .full => ∃ v, o = .full v ∧ (v = 1#1 ↔ r.len.val = 40)
      | .code => o = .code r.bits
      | .hex => ∃ v, o = .hex v ∧
          ∀ j < 12, v.extractLsb' (88 - 8 * j) 8 = BitVec.ofNat 8 ((hex r.bits).getD j ' ').toNat

/-- R94: under R22's invariant `code_o` is `pack` of the first `LEN` bits of `BITS`. -/
def Obligations.CodeOutputIsPackedVector : Prop :=
  ∀ (r : RegFile), r.zeroAboveLen → r.output .code = .code (pack r.vector)

/-- R135: in the cycle in which a command is presented the outputs show the state before it, and its result from the next cycle. -/
def Obligations.OutputsLagTheCommandByOneCycle : Prop :=
  ∀ (s : State) (r r' : RegFile) (i : Instr) (cw : Nat) (p : OutPort) (rest : List HostEvent), s.regs = .ready r →
    s.inputs = .observe p :: .edge false cw :: .observe p :: rest → decode s.config.durW cw = .ok i →
    exec i s = .next { s with regs := .ready r' } →
    Host.Core.run Sys2Proof.core 3 s =
      .next { s with regs := .ready r', inputs := rest, observed := s.observed ++ [r.output p, r'.output p] }

/-- R80: streaming equivalence, from every state: words that present a frame, with any number of NOPs among them, run to the end in
one step each and leave `LEN`, `BITS` and `PHASE` as the reference functions give them, and all else unchanged. R80 asks for a state
with no recorded stop; that a state with one runs alike is the model's reading (notes/assumptions/4.md, DEDUCED). That one event is
one step is 3.md. -/
def Obligations.StreamedFrameComputesDecodeAndPack : Prop :=
  ∀ (s : State) (P cws : List Nat) (rest : List HostEvent), presentsFrame s.config.durW P cws →
    s.inputs = cws.map (HostEvent.edge false) ++ rest →
    ∃ r, Host.Core.run Sys2Proof.core cws.length s = .next { s with regs := .ready r, inputs := rest } ∧
      r.len.val = (decodePayload P).length ∧ r.bits = pack (decodePayload P) ∧
      r.phase = if P.length % 2 = 0 then .mark else .space

/-- R140, R142: after CLEAR and the PUSHes of a payload, `n + 1` cycles for `n` elements, the host reads the length, the Code and the
`hex_o` value of the Code of the decoded payload, and `full_o` tells 40 bits. It covers states with a recorded stop too, which is the
model's reading (notes/assumptions/4.md, DEDUCED), and the list of readings is the model's own (7.md). -/
def Obligations.HostReadsTheDecodedFrame : Prop :=
  ∀ (s : State) (P : List Nat) (rest : List HostEvent), (∀ d ∈ P, d < 2 ^ s.config.durW) →
    s.inputs = .edge false (1 * 2 ^ s.config.durW) :: P.map (fun d => .edge false (2 * 2 ^ s.config.durW + d))
      ++ (.observe .len :: .observe .code :: .observe .hex :: .observe .full :: rest) →
    ∃ t, Host.Core.run Sys2Proof.core (P.length + 1 + 4) s = .next t ∧ t.inputs = rest ∧ t.record = s.record ∧
      t.observed = s.observed ++
        [.len (BitVec.ofNat 6 (decodePayload P).length), .code (pack (decodePayload P)),
         .hex (hexBus (pack (decodePayload P))), .full (if (decodePayload P).length = 40 then 1#1 else 0#1)]

/-- R103: after a frame of fewer than two elements the outputs show length 0, Code 0 and the string of 0, and nothing stops. R103 gives
the string; its bytes on `hex_o` are R99's, whose codes the spec supplies from general knowledge (notes/assumptions/11.md, PRESUMED). -/
def Obligations.EmptyResultAfterShortFrame : Prop :=
  ∀ (s : State) (P : List Nat), P.length < 2 →
    ∃ r, runCommands (.clear 0 :: P.map .push) s = .next { s with regs := .ready r } ∧
      r.lenO = 0#6 ∧ r.codeO = 0x0000000000#40 ∧ r.hexO = 0x307830303030303030303030#96

/-- R136: without CLEAR between them the next frame continues the walk of the previous one: its bits are appended where the previous
frame had an even number of elements, and its marks are read as spaces and its spaces as marks where it had an odd number. -/
def Obligations.FramesWithoutClearRunOn : Prop :=
  (∀ (s : State) (c : Nat) (P Q : List Nat),
    ∃ r, runCommands (.clear c :: (P ++ Q).map .push) s = .next { s with regs := .ready r } ∧
      r.bits = pack (decodePayload (P ++ Q))) ∧
  (∀ (P Q : List Nat), P.length % 2 = 0 → decodePayload (P ++ Q) = (decodePayload P ++ decodePayload Q).take 40) ∧
  (∀ (P Q : List Nat) (m : Nat), P.length % 2 = 1 →
    decodePayload (P ++ m :: Q) = (decodePayload P ++ decide (850 < m) :: decodePayload Q).take 40) ∧
  (decodePayload [400, 1300, 400, 400, 400, 1300] = [true, false, true] ∧
    pack (decodePayload [400, 1300, 400, 400, 400, 1300]) = 0x0000000005#40 ∧
    decodePayload [400, 1300] = [true] ∧ pack (decodePayload [400, 1300]) = 0x0000000001#40)

/-- R137: a pushed leader decodes its space at bit 0 and moves every data bit up by one; the two worked payloads. -/
def Obligations.PushedLeaderMovesEveryBitUp : Prop :=
  (∀ (m s : Nat) (P : List Nat), decodePayload (m :: s :: P) = decide (850 < s) :: (decodePayload P).take 39) ∧
  (decodePayload [9000, 4500, 560, 1690, 560, 560] = [true, true, false] ∧
    pack (decodePayload [9000, 4500, 560, 1690, 560, 560]) = 0x0000000003#40 ∧
    decodePayload [560, 1690, 560, 560] = [true, false] ∧ pack (decodePayload [560, 1690, 560, 560]) = 0x0000000001#40)

/-- R114: what the host presents for a duration of any size or sign fits the port and decodes to the same bit; it is 0 for a negative
duration and `min(d, 2^DUR_W - 1)` for the others. -/
def Obligations.PresentedDurationKeepsTheBit : Prop :=
  ∀ (w : Nat) (d : Int), 10 ≤ w →
    presentDuration w d < 2 ^ w ∧ spaceBit (presentDuration w d) = decide (850 < d) ∧
    (d < 0 → presentDuration w d = 0) ∧ (0 ≤ d → (presentDuration w d : Int) = min d (2 ^ w - 1))

/-! ### Faults, refusals and the host's duties -/

/-- R113: the two faults come exactly from a PUSH and from a reading in `Uninit`; a fault is recorded and never cleared, and no later
state is a final state. That it stays this fault when a later step stops too (notes/assumptions/4.md: the first stop stays) and that
it outlives a loss of power (6.md) are the model's choices (DESIGN CHOICE). -/
def Obligations.FaultsComeOnlyFromUninitAndAreKept : Prop :=
  (∀ (s : State) (f : Fault), step s = .fault f ↔
    s.regs = .uninit ∧
      ((f = .pushBeforeInit ∧ ∃ cw rest d, s.inputs = .edge false cw :: rest ∧ decode s.config.durW cw = .ok (.push d)) ∨
       (f = .readBeforeInit ∧ ∃ p rest, s.inputs = .observe p :: rest))) ∧
  ∀ (s : State) (f : Fault), s.record = none → step s = .fault f → ∀ n,
    (s.ticks (n + 1)).record = some (.fault f) ∧ (s.ticks (n + 1)).isFinal = false

/-- R112: a cycle with `rst = 0` and `cmd_op = 11` is `refuse(ReservedOp)`, recorded in the state, and no later step clears the
record, whatever the host presents, CLEAR and reset included. That an earlier record stays when the reserved cycle, or a later step,
stops again (notes/assumptions/4.md: the first stop stays) and that the record outlives a loss of power (6.md) are the model's choices
(DESIGN CHOICE). -/
def Obligations.ReservedCycleIsRefusedForTheRun : Prop :=
  ∀ (s : State) (d : Nat) (rest : List HostEvent), d < 2 ^ s.config.durW →
    s.inputs = .edge false (3 * 2 ^ s.config.durW + d) :: rest →
    step s = .refused .reservedOp ∧
    (s.record = none → ∀ n, (s.ticks (n + 1)).record = some (.refusal .reservedOp)) ∧
    ∀ x n, s.record = some x → (s.ticks n).record = some x

/-- R55, R112: the reserved command is refused, and nothing else but an event whose number is no command word. That refusal is the
model's choice (notes/assumptions/8.md, DESIGN CHOICE): no hardware run presents such a number. -/
def Obligations.RefusalsComeOnlyFromBadWords : Prop :=
  ∀ (s : State) (x : Refusal), step s = .refused x ↔
    ∃ cw rest, s.inputs = .edge false cw :: rest ∧
      ((x = .reservedOp ∧ ∃ d, decode s.config.durW cw = .ok (.reserved d)) ∨
       ∃ e, decode s.config.durW cw = .error e ∧ x = .badCommandWord e)

/-- R130, R134, R139: a run never stops, however long, exactly when the host keeps the duties whose breach stops a run: no `op = 11`
with `rst = 0`, only command words, and a reset edge or CLEAR before any PUSH or reading. The other duties of R134 and R139 (CLEAR
before every later frame, no leader, every element once and in order) stop no run when broken; R136 and R137 say what they give. The
stop on a number that is no command word is the model's choice (notes/assumptions/8.md), as is that the events after a loss of power
go on and need a reset edge or CLEAR again (6.md). -/
def Obligations.RunNeverStopsIffHostKeepsItsDuties : Prop :=
  ∀ (s : State),
    (∀ n, ∃ t, Host.Core.run Sys2Proof.core n s = .next t) ↔
      hostKeepsDuties s.config.durW s.regs.isReady s.inputs = true

/-! ### The listing's syntax -/

/-- R57: the words of `nop`, `clear` and `push <d>`, with decimal and hexadecimal literals, and the refusal of any operand at or
above `2^DUR_W`. -/
def Obligations.AssemblerEncodesCommands : Prop :=
  (∀ w, AsmLine.nop.events w = .ok [.edge false 0] ∧ AsmLine.clear.events w = .ok [.edge false (2 ^ w)]) ∧
  (∀ w d, d < 2 ^ w → (AsmLine.push d).events w = .ok [.edge false (2 * 2 ^ w + d)]) ∧
  (∀ w d, 2 ^ w ≤ d → (AsmLine.push d).events w = .error (.code .durationTooWide)) ∧
  assembleText 32 "push 0x514 ; a space" = .ok [.edge false 0x200000514] ∧
  wordText 0x20000069A = "0x20000069A".toList

/-- R58: `pair` is its two PUSHes where both operands fit, `.reset` one cycle with `rst = 1`, `.repeat` its lines written out. One text
shows `pair` and `.reset` (R57 for the literals), one that a mnemonic in capitals is refused (R57: lower case). How a text is split
into words is the model's choice (notes/assumptions/10.md). -/
def Obligations.AssemblerExpandsPairResetAndRepeat : Prop :=
  (∀ w m s, m < 2 ^ w → s < 2 ^ w →
    assemble w [.pair m s] = assemble w [.push m, .push s] ∧
    assemble w [.pair m s] = .ok [.edge false (2 * 2 ^ w + m), .edge false (2 * 2 ^ w + s)]) ∧
  (∀ w, AsmLine.reset.events w = .ok [.edge true 0]) ∧
  (∀ n lines rest, writeOut [] [] (.openRepeat n :: lines.map .line ++ .closeRepeat :: rest) =
    writeOut [] (List.replicate n lines).flatten rest) ∧
  assembleText 32 ".reset\npair 560, 1690" = .ok [.edge true 0, .edge false 0x200000230, .edge false 0x20000069A] ∧
  assembleText 32 "PUSH 400" = .error .badLine

/-- R57, R58: no other line exists: a line's words are read only as nothing, `nop`, `clear`, `push <d>`, `pair <m>, <s>`, `.reset`,
`.repeat <n>` with its opening brace, or the closing brace, each exactly so; and a `pair` with an operand at or above `2^DUR_W` is
refused like its PUSHes. The place of the braces and which literals `<n>` may be are the model's choices (notes/assumptions/10.md). -/
def Obligations.AssemblerReadsNoOtherLine : Prop :=
  (∀ (words : List (List Char)) (item : LineItem), lineItem words = .ok item ↔
    (words = [] ∧ item = .blank) ∨
    (words = ["nop".toList] ∧ item = .line .nop) ∨
    (words = ["clear".toList] ∧ item = .line .clear) ∨
    (words = [".reset".toList] ∧ item = .line .reset) ∨
    (words = [[closeBrace]] ∧ item = .closeRepeat) ∨
    (∃ d n, words = ["push".toList, d] ∧ number d = .ok n ∧ item = .line (.push n)) ∨
    (∃ d n, words = [".repeat".toList, d, [openBrace]] ∧ number d = .ok n ∧ item = .openRepeat n) ∨
    (∃ d e m n, words = ["pair".toList, d, [','], e] ∧ number d = .ok m ∧ number e = .ok n ∧
      item = .line (.pair m n))) ∧
  ∀ w m s, 2 ^ w ≤ m ∨ 2 ^ w ≤ s → (AsmLine.pair m s).events w = .error (.code .durationTooWide)
end

