-- ==== Sys2Proof/Laws/Assembler.lean ====
section
/-! SUPPORT. How a line is read, by the number of its words, and the reading of a literal where it stands. -/

namespace Sys2Proof.Machine

@[simp] theorem lineItem_nil : lineItem [] = .ok .blank := rfl

theorem lineItem_one (w : List Char) :
    lineItem [w] =
      if w = "nop".toList then .ok (.line .nop)
      else if w = "clear".toList then .ok (.line .clear)
      else if w = ".reset".toList then .ok (.line .reset)
      else if w = [closeBrace] then .ok .closeRepeat
      else .error .badLine := rfl

theorem lineItem_two (w d : List Char) :
    lineItem [w, d] = if w = "push".toList then (number d).map (fun n => .line (.push n)) else .error .badLine := by
  cases h : number d <;> simp only [lineItem, h] <;> rfl

theorem lineItem_three (w d b : List Char) :
    lineItem [w, d, b] =
      if w = ".repeat".toList ∧ b = [openBrace] then (number d).map .openRepeat else .error .badLine := by
  cases h : number d <;> simp only [lineItem, h] <;> rfl

theorem lineItem_four (w d comma e : List Char) :
    lineItem [w, d, comma, e] =
      if w = "pair".toList ∧ comma = [','] then (number d).bind (fun m => (number e).map (fun n => .line (.pair m n)))
      else .error .badLine := by
  cases h : number d <;> cases h' : number e <;> simp only [lineItem, h, h'] <;> rfl

/-- R57, R58: no line has five words or more. -/
theorem lineItem_long (a b c d e : List Char) (rest : List (List Char)) :
    lineItem (a :: b :: c :: d :: e :: rest) = .error .badLine := rfl

end Sys2Proof.Machine
end

