-- ==== Sys2Proof/Laws/Words.lean ====
section
/-! SUPPORT. The fields of a command word, and the decoder and encoder on each. -/

namespace Sys2Proof

@[simp] theorem maxBits_eq : Config.maxBits = 40 := rfl
@[simp] theorem threshold_eq : Config.threshold = 850 := rfl
@[simp] theorem codeW_eq : Config.codeW = 40 := rfl
@[simp] theorem lenW_eq : Config.lenW = 6 := rfl
@[simp] theorem hexDigits_eq : Config.hexDigits = 10 := rfl
@[simp] theorem hexChars_eq : Config.hexChars = 12 := rfl
@[simp] theorem standard_durW : Config.standard.durW = 32 := rfl
@[simp] theorem valid_iff (c : Config) : c.valid = true ↔ 10 ≤ c.durW := decide_eq_true_iff

/-- R52: a command is well-formed when its duration fits the port. -/
@[simp] theorem wf_iff (w : Nat) (i : Instr) : i.wf w = true ↔ i.dur < 2 ^ w := decide_eq_true_iff

/-- R53: the selection rule of a row. -/
@[simp] theorem selects_iff (row : OpcodeRow) (cw : Nat) : row.selects cw = true ↔ cw &&& row.bitsMask = row.bitsMatch :=
  decide_eq_true_iff

/-- R51: the field `op` of an assembled word. -/
theorem opField_commandWord (w : Nat) (op : Opcode) (d : Nat) (h : d < 2 ^ w) : opField w (commandWord w op d) = op := by
  have hd : (op.toNat * 2 ^ w + d) / 2 ^ w = op.toNat := by
    rw [Nat.add_comm, Nat.add_mul_div_right _ _ (Nat.two_pow_pos w), Nat.div_eq_of_lt h, Nat.zero_add]
  simp [opField, commandWord, Nat.shiftRight_eq_div_pow, hd]

/-- R51: the field `dur` of an assembled word. -/
theorem durField_commandWord (w : Nat) (op : Opcode) (d : Nat) (h : d < 2 ^ w) : durField w (commandWord w op d) = d := by
  simp [durField, commandWord, Nat.mod_eq_of_lt h]

/-- R50: an assembled word fits `DUR_W + 2` bits. -/
theorem commandWord_lt (w : Nat) (op : Opcode) (d : Nat) (h : d < 2 ^ w) : commandWord w op d < 2 ^ (w + 2) := by
  have hop : op.toNat < 4 := op.isLt
  have : (op.toNat + 1) * 2 ^ w ≤ 4 * 2 ^ w := Nat.mul_le_mul_right _ hop
  rw [Nat.add_mul] at this
  simp only [commandWord, Nat.pow_add]
  omega

/-- R52: the field `dur` fits the port. -/
theorem durField_lt (w cw : Nat) : durField w cw < 2 ^ w := Nat.mod_lt _ (Nat.two_pow_pos w)

/-- R50: a command word is its two fields. -/
theorem commandWord_fields (w cw : Nat) (h : cw < 2 ^ (w + 2)) : commandWord w (opField w cw) (durField w cw) = cw := by
  have hq : cw / 2 ^ w < 4 := by
    rw [Nat.div_lt_iff_lt_mul (Nat.two_pow_pos w)]
    rw [Nat.pow_add] at h
    omega
  have : (opField w cw).toNat = cw / 2 ^ w := by
    simp [opField, Nat.shiftRight_eq_div_pow, Nat.mod_eq_of_lt hq]
  rw [commandWord, this, durField]
  exact Nat.div_add_mod' cw (2 ^ w)

/-- The decoder and the encoder name a command's opcode alike. -/
@[simp] theorem commandOf_opcode (i : Instr) : commandOf i.opcode i.dur = i := by
  cases i <;> simp [commandOf, Instr.opcode, Instr.dur]

@[simp] theorem opcode_commandOf (op : Opcode) (d : Nat) : (commandOf op d).opcode = op := by
  have hop : op = 0#2 ∨ op = 1#2 ∨ op = 2#2 ∨ op = 3#2 := by revert op; decide
  rcases hop with rfl | rfl | rfl | rfl <;> rfl

@[simp] theorem dur_commandOf (op : Opcode) (d : Nat) : (commandOf op d).dur = d := by
  unfold commandOf; split_ifs <;> rfl

/-- What the decoder answers, whole. -/
theorem decode_eq_ok_iff (w cw : Nat) (i : Instr) :
    decode w cw = .ok i ↔ cw < 2 ^ (w + 2) ∧ commandOf (opField w cw) (durField w cw) = i := by
  unfold decode; split <;> simp_all

/-- The decoder rejects exactly the numbers that are no command words. -/
theorem decode_eq_error_iff (w cw : Nat) (e : CodeError) :
    decode w cw = .error e ↔ 2 ^ (w + 2) ≤ cw ∧ e = .wordTooWide := by
  unfold decode; split <;> simp_all [eq_comm]

/-- R53: the decoder on the word of an opcode and a duration. -/
theorem decode_commandWord (w : Nat) (op : Opcode) (d : Nat) (h : d < 2 ^ w) :
    decode w (commandWord w op d) = .ok (commandOf op d) := by
  rw [decode_eq_ok_iff]
  exact ⟨commandWord_lt w op d h, by rw [opField_commandWord w op d h, durField_commandWord w op d h]⟩

/-- R50: the encoder on a command that fits. -/
theorem encode_of_fits (w : Nat) (i : Instr) (h : i.dur < 2 ^ w) : encode w i = .ok (commandWord w i.opcode i.dur) :=
  if_pos ((wf_iff w i).2 h)

/-- R57, R114: the encoder on one that does not. -/
theorem encode_of_too_wide (w : Nat) (i : Instr) (h : 2 ^ w ≤ i.dur) : encode w i = .error .durationTooWide :=
  if_neg (by rw [wf_iff]; omega)

end Sys2Proof
end

