-- ==== Sys2Proof/Laws/PerInstr.lean ====
section
/-! SUPPORT. The family `OpcodeRow`: for every command, the word of its opcode and any duration that fits is selected by the row of
the opcode map (spec/30_encoding.md R53) that bears its mnemonic. -/

namespace Sys2Proof.Laws.OpcodeRow

/-- R53, of one command. -/
def Statement (i : Instr) : Prop :=
  ∀ w, i.wf w = true →
    ∃ row ∈ opcodeTable w, row.mnemonic = i.mnemonic ∧ row.selects (commandWord w i.opcode i.dur) = true

/-- The bits of a word under the mask of `op`. -/
theorem word_and_mask (w : Nat) (op : Opcode) (d : Nat) (h : d < 2 ^ w) : commandWord w op d &&& 3 <<< w = op.toNat <<< w := by
  have hop : op.toNat < 4 := op.isLt
  have hc : commandWord w op d = 2 ^ w * op.toNat + d := by rw [commandWord, Nat.mul_comm]
  rw [hc]
  refine Nat.eq_of_testBit_eq fun k => ?_
  rw [Nat.testBit_and, Nat.testBit_two_pow_mul_add _ h, Nat.testBit_shiftLeft, Nat.testBit_shiftLeft]
  by_cases hk : k < w
  · simp [hk, show ¬ w ≤ k by omega]
  · have hk' : w ≤ k := by omega
    have h3 : (3 : Nat) = 2 ^ 2 - 1 := rfl
    simp only [hk, if_false, hk', decide_true, Bool.true_and]
    rw [h3, Nat.testBit_two_pow_sub_one]
    by_cases h2 : k - w < 2
    · simp [h2]
    · have : op.toNat.testBit (k - w) = false :=
        Nat.testBit_lt_two_pow (Nat.lt_of_lt_of_le hop
          (Nat.pow_le_pow_right (n := 2) (i := 2) (by decide) (by omega)))
      simp [this]

theorem nop (d : Nat) : Statement (.nop d) := fun w h =>
  ⟨⟨"NOP", 0 <<< w, 3 <<< w⟩, by simp [opcodeTable], rfl, (selects_iff _ _).2 (word_and_mask w 0b00#2 d ((wf_iff _ _).1 h))⟩

theorem clear (d : Nat) : Statement (.clear d) := fun w h =>
  ⟨⟨"CLEAR", 1 <<< w, 3 <<< w⟩, by simp [opcodeTable], rfl, (selects_iff _ _).2 (word_and_mask w 0b01#2 d ((wf_iff _ _).1 h))⟩

theorem push (d : Nat) : Statement (.push d) := fun w h =>
  ⟨⟨"PUSH", 2 <<< w, 3 <<< w⟩, by simp [opcodeTable], rfl, (selects_iff _ _).2 (word_and_mask w 0b10#2 d ((wf_iff _ _).1 h))⟩

theorem reserved (d : Nat) : Statement (.reserved d) := fun w h =>
  ⟨⟨"RESERVED", 3 <<< w, 3 <<< w⟩, by simp [opcodeTable], rfl, (selects_iff _ _).2 (word_and_mask w 0b11#2 d ((wf_iff _ _).1 h))⟩

end Sys2Proof.Laws.OpcodeRow
end

