-- ==== Sys2Proof/Laws/Reference.lean ====
section
/-! SUPPORT. The reference functions: the walk with any room left, the packed value bit by bit, and the output bus byte by byte. -/

namespace Sys2Proof.Machine

@[simp] theorem decodeWalk_zero (P : List Nat) : decodeWalk 0 P = [] := by simp [decodeWalk]
@[simp] theorem decodeWalk_nil (room : Nat) : decodeWalk room [] = [] := by cases room <;> rfl
@[simp] theorem decodeWalk_single (room m : Nat) : decodeWalk room [m] = [] := by cases room <;> rfl
@[simp] theorem decodeWalk_pair (room m s : Nat) (P : List Nat) :
    decodeWalk (room + 1) (m :: s :: P) = spaceBit s :: decodeWalk room P := rfl

@[simp] theorem packValue_nil : packValue [] = 0 := rfl
@[simp] theorem packValue_cons (b : Bool) (B : List Bool) : packValue (b :: B) = b.toNat + 2 * packValue B := rfl

/-- R76, with room for `room` bits. -/
@[simp] theorem decodeWalk_length (room : Nat) (P : List Nat) : (decodeWalk room P).length = min (P.length / 2) room := by
  induction room generalizing P with
  | zero => simp
  | succ room ih =>
    match P with
    | [] => simp
    | [m] => simp
    | m :: s :: P => simp [ih P]; omega

/-- R90: the bits are at distinct positions, so the sum never carries. -/
theorem testBit_packValue (B : List Bool) (k : Nat) : (packValue B).testBit k = B.getD k false := by
  induction B generalizing k with
  | nil => simp
  | cons b B ih =>
    cases k with
    | zero => cases b <;> simp [Nat.testBit_zero]
    | succ k =>
      rw [packValue_cons, Nat.testBit_succ]
      have : (b.toNat + 2 * packValue B) / 2 = packValue B := by
        have := Bool.toNat_lt b
        omega
      rw [this, ih]; simp

/-- R90: a vector of at most `n` bits packs below `2^n`. -/
theorem packValue_lt (B : List Bool) : packValue B < 2 ^ B.length := by
  induction B with
  | nil => simp
  | cons b B ih =>
    rw [packValue_cons, List.length_cons, Nat.pow_succ]
    have := Bool.toNat_lt b
    omega

/-- R92: the Code bit by bit. -/
theorem getLsbD_pack (B : List Bool) (k : Nat) (h : k < 40) : (pack B).getLsbD k = B.getD k false := by
  rw [pack, BitVec.getLsbD_ofNat, testBit_packValue]
  simp [h]

/-- R95, R99: the character of a digit has the code that the output bus carries. -/
theorem ascii_eq_digit (n : Nibble) : ascii n = BitVec.ofNat 8 (digit n).toNat := by
  revert n; decide

/-- The string's characters: the two before the digits, then the digits. -/
theorem hex_getElem? (c : Code) (j : Nat) (h : j < 10) : (hex c)[2 + j]? = some (digit (nibble c j)) := by
  have hj : 2 + j - ['0', 'x'].length = j := by simp
  rw [hex, List.getElem?_append_right (by simp), hj, List.getElem?_map, hexDigits_eq, List.getElem?_range h]
  rfl

@[simp] theorem hex_length (c : Code) : (hex c).length = 12 := by
  simp only [hex, List.length_append, List.length_map, List.length_range]
  rfl

end Sys2Proof.Machine
end

