-- ==== Sys2Proof/Laws/State.lean ====
section
/-! SUPPORT. One lemma per field for each update of the state and of the register file, each true by rfl. -/

namespace Sys2Proof.Machine

section Updates
variable (s : State) (x : Stop) (r : RegFile) (n w : Nat)

@[simp] theorem writeResetValues_regs : s.writeResetValues.regs = .ready RegFile.resetValues := rfl
@[simp] theorem writeResetValues_config : s.writeResetValues.config = s.config := rfl
@[simp] theorem writeResetValues_record : s.writeResetValues.record = s.record := rfl
@[simp] theorem writeResetValues_inputs : s.writeResetValues.inputs = s.inputs := rfl
@[simp] theorem writeResetValues_observed : s.writeResetValues.observed = s.observed := rfl

@[simp] theorem losePower_regs : (losePower s).regs = .uninit := rfl
@[simp] theorem losePower_config : (losePower s).config = s.config := rfl
@[simp] theorem losePower_record : (losePower s).record = s.record := rfl
@[simp] theorem losePower_inputs : (losePower s).inputs = s.inputs := rfl
@[simp] theorem losePower_observed : (losePower s).observed = s.observed := rfl

@[simp] theorem stopWith_regs : (s.stopWith x).regs = .uninit := rfl
@[simp] theorem stopWith_config : (s.stopWith x).config = s.config := rfl
@[simp] theorem stopWith_record : (s.stopWith x).record = s.record.or (some x) := rfl
@[simp] theorem stopWith_inputs : (s.stopWith x).inputs = s.inputs := rfl
@[simp] theorem stopWith_observed : (s.stopWith x).observed = s.observed := rfl

@[simp] theorem withFetchWord_config : (s.withFetchWord n w).config = Config.standard := rfl
@[simp] theorem withFetchWord_regs : (s.withFetchWord n w).regs = s.regs := rfl
@[simp] theorem withFetchWord_record : (s.withFetchWord n w).record = s.record := rfl
@[simp] theorem withFetchWord_inputs : (s.withFetchWord n w).inputs = .edge false w :: s.inputs := rfl
@[simp] theorem withFetchWord_observed : (s.withFetchWord n w).observed = s.observed := rfl

@[simp] theorem resetValues_bits : RegFile.resetValues.bits = 0x0000000000#40 := rfl
@[simp] theorem resetValues_len : RegFile.resetValues.len = 0 := rfl
@[simp] theorem resetValues_phase : RegFile.resetValues.phase = .mark := rfl

end Updates

@[simp] theorem isReady_uninit : Regs.isReady .uninit = false := rfl
@[simp] theorem isReady_ready (r : RegFile) : Regs.isReady (.ready r) = true := rfl
@[simp] theorem flip_mark : Phase.flip .mark = .space := rfl
@[simp] theorem flip_space : Phase.flip .space = .mark := rfl

end Sys2Proof.Machine
end

