-- ==== Sys2Proof/Laws/Registers.lean ====
section
/-! SUPPORT. What the shared operations on the registers do, once each. -/

namespace Sys2Proof.Machine

/-- R101, as a number. -/
@[simp] theorem lenO_toNat (r : RegFile) : r.lenO.toNat = r.len.val := by
  have := r.len.isLt
  simp only [RegFile.lenO, BitVec.toNat_ofNat]
  exact Nat.mod_eq_of_lt (show r.len.val < 64 by omega)

/-- R102. -/
@[simp] theorem fullO_eq_one_iff (r : RegFile) : r.fullO = 1#1 ↔ r.len.val = 40 := by
  by_cases h : r.len.val = 40 <;> simp [RegFile.fullO, h]

/-- R14: writing one bit changes that bit only. -/
theorem getLsbD_setBit (v : Code) (i : Nat) (b : Bool) (k : Nat) (hi : i < 40) :
    (setBit v i b).getLsbD k = if k = i then b else v.getLsbD k := by
  by_cases hk : k < 40
  · cases b <;> by_cases h : k = i <;>
      simp [setBit, h, hk, hi] <;> omega
  · have hki : k ≠ i := by omega
    simp [hki, BitVec.getLsbD_of_ge, Nat.le_of_not_lt hk]

/-- R79: with room, the bit goes to position `LEN` and `LEN` grows by one. -/
theorem appendBit_of_room (r : RegFile) (b : Bool) (h : r.len.val < 40) :
    (r.appendBit b).len.val = r.len.val + 1 ∧ (r.appendBit b).phase = r.phase ∧
      ∀ k, (r.appendBit b).bits.getLsbD k = if k = r.len.val then b else r.bits.getLsbD k := by
  simp [RegFile.appendBit, h, getLsbD_setBit]

@[simp] theorem appendBit_phase (r : RegFile) (b : Bool) : (r.appendBit b).phase = r.phase := by
  unfold RegFile.appendBit; split <;> rfl

/-- R81: a full vector is kept. -/
theorem appendBit_of_full (r : RegFile) (b : Bool) (h : ¬ r.len.val < 40) : r.appendBit b = r := by
  simp [RegFile.appendBit, h]

/-- R79 (a): a mark changes only the phase. -/
theorem pushElement_of_mark (r : RegFile) (d : Nat) (h : r.phase = .mark) :
    r.pushElement d = { r with phase := .space } := by
  simp [RegFile.pushElement, h]

/-- R79: a space appends its bit. -/
theorem pushElement_of_space (r : RegFile) (d : Nat) (h : r.phase = .space) :
    r.pushElement d = { r.appendBit (spaceBit d) with phase := .mark } := by
  simp [RegFile.pushElement, h]

/-- R79: every PUSH toggles the phase. -/
@[simp] theorem pushElement_phase (r : RegFile) (d : Nat) : (r.pushElement d).phase = r.phase.flip := by
  unfold RegFile.pushElement; split <;> simp_all

/-- R81: at `LEN = 40` a PUSH changes only the phase. -/
theorem pushElement_of_full (r : RegFile) (d : Nat) (h : r.len.val = 40) :
    r.pushElement d = { r with phase := r.phase.flip } := by
  cases hp : r.phase
  · simp [pushElement_of_mark r d hp]
  · rw [pushElement_of_space r d hp, appendBit_of_full r _ (by omega)]; rfl

/-- R79, R29: `LEN` grows by one exactly at a space with room. -/
theorem pushElement_len (r : RegFile) (d : Nat) :
    (r.pushElement d).len.val = r.len.val + if r.phase = .space ∧ r.len.val < 40 then 1 else 0 := by
  cases hp : r.phase with
  | mark => simp [pushElement_of_mark r d hp]
  | space =>
    by_cases h : r.len.val < 40
    · rw [pushElement_of_space r d hp]
      simpa [h] using (appendBit_of_room r (spaceBit d) h).1
    · rw [pushElement_of_full r d (by have := r.len.isLt; omega)]
      simp [h]

/-- R79: a bit of `BITS` after PUSH. -/
theorem pushElement_getLsbD (r : RegFile) (d k : Nat) :
    (r.pushElement d).bits.getLsbD k =
      if r.phase = .space ∧ r.len.val < 40 ∧ k = r.len.val then spaceBit d else r.bits.getLsbD k := by
  cases hp : r.phase with
  | mark => simp [pushElement_of_mark r d hp]
  | space =>
    by_cases h : r.len.val < 40
    · rw [pushElement_of_space r d hp]
      simpa [h] using (appendBit_of_room r (spaceBit d) h).2.2 k
    · rw [pushElement_of_full r d (by have := r.len.isLt; omega)]
      simp [h]

end Sys2Proof.Machine
end

