-- ==== Sys2Proof/Laws/Step.lean ====
section
/-! SUPPORT. What a command, an event and a step can do, said once; and how a run goes on from its first step. -/

namespace Sys2Proof.Machine

@[simp] theorem exec_nop (d : Nat) (s : State) : exec (.nop d) s = .next s := rfl
@[simp] theorem exec_clear (d : Nat) (s : State) : exec (.clear d) s = .next s.writeResetValues := rfl
@[simp] theorem exec_reserved (d : Nat) (s : State) : exec (.reserved d) s = .refused .reservedOp := rfl

theorem exec_push_uninit (d : Nat) (s : State) (h : s.regs = .uninit) : exec (.push d) s = .fault .pushBeforeInit := by
  simp [exec, execPush, h]

theorem exec_push_ready (d : Nat) (s : State) (r : RegFile) (h : s.regs = .ready r) :
    exec (.push d) s = .next { s with regs := .ready (r.pushElement d) } := by
  simp [exec, execPush, h]

theorem observeOutput_uninit (p : OutPort) (s : State) (h : s.regs = .uninit) :
    observeOutput p s = .fault .readBeforeInit := by
  simp [observeOutput, h]

theorem observeOutput_ready (p : OutPort) (s : State) (r : RegFile) (h : s.regs = .ready r) :
    observeOutput p s = .next { s with observed := s.observed ++ [r.output p] } := by
  simp [observeOutput, h]

/-- Everything a command can do. -/
theorem exec_cases (i : Instr) (s : State) :
    (∃ d, i = .nop d ∧ exec i s = .next s) ∨
    (∃ d, i = .clear d ∧ exec i s = .next s.writeResetValues) ∨
    (∃ d r, i = .push d ∧ s.regs = .ready r ∧ exec i s = .next { s with regs := .ready (r.pushElement d) }) ∨
    (∃ d, i = .push d ∧ s.regs = .uninit ∧ exec i s = .fault .pushBeforeInit) ∨
    (∃ d, i = .reserved d ∧ exec i s = .refused .reservedOp) := by
  cases i with
  | nop d => exact .inl ⟨d, rfl, rfl⟩
  | clear d => exact .inr (.inl ⟨d, rfl, rfl⟩)
  | push d =>
    cases h : s.regs with
    | uninit => exact .inr (.inr (.inr (.inl ⟨d, rfl, rfl, exec_push_uninit d s h⟩)))
    | ready r => exact .inr (.inr (.inl ⟨d, r, rfl, rfl, exec_push_ready d s r h⟩))
  | reserved d => exact .inr (.inr (.inr (.inr ⟨d, rfl, rfl⟩)))

theorem step_nil (s : State) (h : s.inputs = []) : step s = .next s := by
  simp [step, stepEvent, h]

theorem step_cons (s : State) (e : HostEvent) (rest : List HostEvent) (h : s.inputs = e :: rest) :
    step s = hostEvent e { s with inputs := rest } := by
  simp [step, stepEvent, h]

theorem commandEdge_ok (s : State) (cw : Nat) (i : Instr) (h : decode s.config.durW cw = .ok i) :
    commandEdge cw s = exec i s := by
  simp [commandEdge, h]

theorem commandEdge_error (s : State) (cw : Nat) (e : CodeError) (h : decode s.config.durW cw = .error e) :
    commandEdge cw s = .refused (.badCommandWord e) := by
  simp [commandEdge, h]

/-- Everything a step that answers a next state can do. -/
theorem step_cases (s t : State) (h : step s = .next t) :
    (s.inputs = [] ∧ t = s) ∨
    ∃ e rest, s.inputs = e :: rest ∧
      ((∃ cw, e = .edge true cw ∧ t = { s with regs := .ready RegFile.resetValues, inputs := rest }) ∨
       (∃ cw d, e = .edge false cw ∧ decode s.config.durW cw = .ok (.nop d) ∧ t = { s with inputs := rest }) ∨
       (∃ cw d, e = .edge false cw ∧ decode s.config.durW cw = .ok (.clear d) ∧
          t = { s with regs := .ready RegFile.resetValues, inputs := rest }) ∨
       (∃ cw d r, e = .edge false cw ∧ decode s.config.durW cw = .ok (.push d) ∧ s.regs = .ready r ∧
          t = { s with regs := .ready (r.pushElement d), inputs := rest }) ∨
       (∃ p r, e = .observe p ∧ s.regs = .ready r ∧
          t = { s with inputs := rest, observed := s.observed ++ [r.output p] }) ∨
       (e = .powerLoss ∧ t = { s with regs := .uninit, inputs := rest })) := by
  cases hi : s.inputs with
  | nil => rw [step_nil _ hi] at h; cases h; exact .inl ⟨rfl, rfl⟩
  | cons e rest =>
    refine .inr ⟨e, rest, rfl, ?_⟩
    rw [step_cons _ _ _ hi] at h
    cases e with
    | edge b cw =>
      cases b with
      | true => cases h; exact .inl ⟨cw, rfl, rfl⟩
      | false =>
        cases hd : decode s.config.durW cw with
        | error e => simp [hostEvent, commandEdge, hd] at h
        | ok i =>
          have h : exec i { s with inputs := rest } = .next t := by simpa [hostEvent, commandEdge, hd] using h
          rcases exec_cases i { s with inputs := rest } with
            ⟨d, rfl, hx⟩ | ⟨d, rfl, hx⟩ | ⟨d, r, rfl, hr, hx⟩ | ⟨d, rfl, _, hx⟩ | ⟨d, rfl, hx⟩ <;> rw [hx] at h <;> cases h
          · exact .inr (.inl ⟨cw, d, rfl, hd, rfl⟩)
          · exact .inr (.inr (.inl ⟨cw, d, rfl, hd, rfl⟩))
          · exact .inr (.inr (.inr (.inl ⟨cw, d, r, rfl, hd, hr, rfl⟩)))
    | observe p =>
      cases hr : s.regs with
      | uninit => simp [hostEvent, observeOutput, hr] at h
      | ready r =>
        simp only [hostEvent, observeOutput, hr] at h
        cases h
        exact .inr (.inr (.inr (.inr (.inl ⟨p, r, rfl, rfl, rfl⟩))))
    | powerLoss => cases h; exact .inr (.inr (.inr (.inr (.inr ⟨rfl, rfl⟩))))

@[simp] theorem run_zero (s : State) : Host.Core.run Sys2Proof.core 0 s = .next s := rfl

/-- A run whose first step answers a next state. -/
theorem run_succ_next (n : Nat) (s t : State) (h : step s = .next t) :
    Host.Core.run Sys2Proof.core (n + 1) s = Host.Core.run Sys2Proof.core n t := by
  have h' : Sys2Proof.core.step s = .next t := h
  simp [Host.Core.run, h']

theorem run_succ_fault (n : Nat) (s : State) (f : Fault) (h : step s = .fault f) :
    Host.Core.run Sys2Proof.core (n + 1) s = .fault f := by
  have h' : Sys2Proof.core.step s = .fault f := h
  simp [Host.Core.run, h']

theorem run_succ_refused (n : Nat) (s : State) (x : Refusal) (h : step s = .refused x) :
    Host.Core.run Sys2Proof.core (n + 1) s = .refused x := by
  have h' : Sys2Proof.core.step s = .refused x := h
  simp [Host.Core.run, h']

/-- A run of `m + n` steps is a run of `m` and then one of `n`. -/
theorem run_add (m n : Nat) (s t : State) (h : Host.Core.run Sys2Proof.core m s = .next t) :
    Host.Core.run Sys2Proof.core (m + n) s = Host.Core.run Sys2Proof.core n t := by
  induction m generalizing s with
  | zero =>
    rw [run_zero] at h
    cases h; rw [Nat.zero_add]
  | succ m ih =>
    rw [Nat.succ_add_eq_add_succ]
    cases hs : step s with
    | next u =>
      rw [run_succ_next _ _ _ hs] at h
      rw [show m + n.succ = (m + n) + 1 by omega, run_succ_next _ _ _ hs]
      exact ih u h
    | fault f => rw [run_succ_fault _ _ _ hs] at h; cases h
    | refused x => rw [run_succ_refused _ _ _ hs] at h; cases h

end Sys2Proof.Machine
end

