-- ==== Sys2Proof/Laws/Run.lean ====
section
/-! SUPPORT. The recorded step, and runs of commands, by what their first step answers. -/

namespace Sys2Proof.Machine

theorem tick_of_next (s t : State) (h : step s = .next t) : s.tick = t := by simp [State.tick, h]

theorem tick_of_fault (s : State) (f : Fault) (h : step s = .fault f) :
    s.tick = { s with inputs := s.inputs.tail }.stopWith (.fault f) := by simp [State.tick, h]

theorem tick_of_refused (s : State) (x : Refusal) (h : step s = .refused x) :
    s.tick = { s with inputs := s.inputs.tail }.stopWith (.refusal x) := by simp [State.tick, h]

@[simp] theorem ticks_zero (s : State) : s.ticks 0 = s := rfl
@[simp] theorem ticks_succ (n : Nat) (s : State) : s.ticks (n + 1) = s.tick.ticks n := rfl

@[simp] theorem runCommands_nil (s : State) : runCommands [] s = .next s := rfl

theorem runCommands_of_next (i : Instr) (is : List Instr) (s t : State) (h : exec i s = .next t) :
    runCommands (i :: is) s = runCommands is t := by simp [runCommands, h]

theorem runCommands_of_fault (i : Instr) (is : List Instr) (s : State) (f : Fault) (h : exec i s = .fault f) :
    runCommands (i :: is) s = .fault f := by simp [runCommands, h]

theorem runCommands_of_refused (i : Instr) (is : List Instr) (s : State) (x : Refusal) (h : exec i s = .refused x) :
    runCommands (i :: is) s = .refused x := by simp [runCommands, h]

@[simp] theorem commandsOf_nil (w : Nat) : commandsOf w [] = some [] := rfl

theorem commandsOf_cons_eq_some (w cw : Nat) (cws : List Nat) (is : List Instr) :
    commandsOf w (cw :: cws) = some is ↔ ∃ i rest, decode w cw = .ok i ∧ commandsOf w cws = some rest ∧ is = i :: rest := by
  cases hd : decode w cw <;> cases hc : commandsOf w cws <;> simp [commandsOf, hd, hc, eq_comm]

end Sys2Proof.Machine
end

