-- ==== Sys2Proof/Tests/Slice0.lean ====
section
/-! SUPPORT. Tests, with expected results from spec/30_encoding.md and spec/95_test_vectors.md, and, for every statement with
hypotheses, a concrete state and operands that meet them together (the names witness_…). -/

namespace Sys2Proof.Tests

open Sys2Proof.Machine

/-- A state with the registers `(BITS, LEN, PHASE)` and the given stream, as spec/95_test_vectors.md writes one. -/
def at' (bits : Code) (len : Fin 41) (phase : Phase) (inputs : List HostEvent := []) : State :=
  { State.reset with regs := .ready ⟨bits, len, phase⟩, inputs := inputs }

/-- A state in `Uninit` with the given stream. -/
def uninit (inputs : List HostEvent := []) : State := { State.powerOn with inputs := inputs }

/-- The outcome is the next state `t`. -/
def isNext (o : Host.Outcome State Fault Refusal) (t : State) : Bool :=
  match o with
  | .next s => decide (s = t)
  | .fault _ => false
  | .refused _ => false

/-- The outcome is the fault `f`. -/
def isFault (o : Host.Outcome State Fault Refusal) (f : Fault) : Bool :=
  match o with
  | .next _ => false
  | .fault g => decide (g = f)
  | .refused _ => false

/-- The outcome is the refusal `x`. -/
def isRefused (o : Host.Outcome State Fault Refusal) (x : Refusal) : Bool :=
  match o with
  | .next _ => false
  | .fault _ => false
  | .refused y => decide (y = x)

/-! ### Encoding: words written out bit by bit from R51 and R53, bit 33 first -/

theorem test_decode_nop_dur_ignored :
    decode 32 0b0011111111111111111111111111111111 = .ok (.nop 0xFFFFFFFF) := by decide

theorem test_decode_clear_with_dur_1300 :
    decode 32 0b0100000000000000000000010100010100 = .ok (.clear 1300) := by decide

theorem test_decode_push_851 :
    decode 32 0b1000000000000000000000001101010011 = .ok (.push 851) := by decide

theorem test_decode_reserved :
    decode 32 0b1100000000000000000000000000000000 = .ok (.reserved 0) := by decide

/-- R50: 35 bits are no command word. -/
theorem test_decode_too_wide : decode 32 0x400000000 = .error .wordTooWide := by decide

/-- R9, R51: the narrowest `DUR_W`; `op = CW[11:10]`. -/
theorem test_decode_narrow_push : decode 10 0b101101010011 = .ok (.push 851) := by decide

theorem test_encode_push_largest : encode 32 (.push 4294967295) = .ok 0x2FFFFFFFF := by decide

/-- R57: no word carries a duration at `2^DUR_W`. -/
theorem test_encode_refuses_too_large : encode 32 (.push 4294967296) = .error .durationTooWide := by decide

theorem test_decodeTableWord_clear : decodeTableWord 40 0x100000514 = some (.clear 1300) := by decide

/-! ### Well-formedness: an ill-formed term for each constructor -/

theorem test_wf_refuses_nop : (Instr.nop 4294967296).wf 32 = false := by decide
theorem test_wf_refuses_clear : (Instr.clear 4294967296).wf 32 = false := by decide
theorem test_wf_refuses_push : (Instr.push 1024).wf 10 = false := by decide
theorem test_wf_refuses_reserved : (Instr.reserved 4294967296).wf 32 = false := by decide

/-! ### The commands (spec/95_test_vectors.md 2.2), each one step from its word -/

theorem test_nop_keeps_registers :
    isNext (step (at' 0x0000000003#40 3 .mark [.edge false 0x0FFFFFFFF])) (at' 0x0000000003#40 3 .mark) = true := by decide

theorem test_clear_from_full :
    isNext (step (at' 0xFFFFFFFFFF#40 40 .space [.edge false 0x100000000])) (at' 0x0000000000#40 0 .mark) = true := by decide

theorem test_push_equal_to_threshold :
    isNext (step (at' 0x0000000000#40 0 .space [.edge false 0x200000352])) (at' 0x0000000000#40 1 .mark) = true := by decide

theorem test_push_the_fortieth_bit :
    isNext (step (at' 0x7FFFFFFFFF#40 39 .space [.edge false 0x200000514])) (at' 0xFFFFFFFFFF#40 40 .mark) = true := by decide

/-! ### Reset, refusal and fault (spec/95_test_vectors.md 2.5) -/

theorem test_reset_wins_over_reserved :
    isNext (step (at' 0x0000000003#40 3 .space [.edge true 0x300000000])) (at' 0x0000000000#40 0 .mark) = true := by decide

theorem test_reserved_is_refused :
    isRefused (step (at' 0x0000000003#40 3 .space [.edge false 0x300000000])) .reservedOp = true := by decide

theorem test_push_before_init_faults :
    isFault (step (uninit [.edge false 0x200000190])) .pushBeforeInit = true := by decide

theorem test_read_before_init_faults : isFault (step (uninit [.observe .len])) .readBeforeInit = true := by decide

theorem test_nop_leaves_uninit : isNext (step (uninit [.edge false 0])) uninit = true := by decide

theorem test_reset_keeps_the_recorded_refusal :
    let s := { at' 0x0000000003#40 3 .space [.edge true 0] with record := some (.refusal .reservedOp) }
    s.tick = { at' 0x0000000000#40 0 .mark with record := some (.refusal .reservedOp) } := by decide

theorem test_refusal_is_recorded :
    (at' 0x0000000003#40 3 .space [.edge false 0x300000000]).tick.record = some (.refusal .reservedOp) := by decide

theorem test_fetch_word_runs_after_reset :
    isNext (step (State.reset.withFetchWord 40 0x200000514)) (at' 0x0000000000#40 0 .space) = true := by decide

/-! ### The reference functions and the outputs (spec/95_test_vectors.md 1, 2.1, 2.3, 2.4) -/

theorem test_decode_source_scenario : decodePayload [400, 1300, 400, 1300, 400, 400] = [true, true, false] := by decide

theorem test_decode_drops_space_41 : decodePayload (List.replicate 80 560 ++ [560, 1690]) = List.replicate 40 false := by decide

theorem test_pack_first_bit_is_bit_0 : pack [true, false, true, false, true, true, true, true] = 0x00000000F5#40 := by decide

theorem test_hex_letters : hex 0xABCDEF0123#40 = "0xABCDEF0123".toList := by decide

theorem test_hex_bus_letters : hexBus 0xABCDEF0123#40 = 0x307841424344454630313233#96 := by decide

theorem test_outputs_when_full :
    RegFile.fullO ⟨0x0000000000#40, 40, .space⟩ = 1#1 ∧ RegFile.lenO ⟨0x0000000000#40, 40, .space⟩ = 40#6 := by decide

theorem test_observe_code :
    isNext (step (at' 0x0000000003#40 3 .mark [.observe .code]))
      { at' 0x0000000003#40 3 .mark with observed := [.code 0x0000000003#40] } = true := by decide

/-! ### The listing (spec/30_encoding.md R57, R58) -/

theorem test_assemble_pair_after_reset :
    assembleText 32 ".reset  ; rst = 1\nclear\npair 560, 1690" =
      .ok [.edge true 0, .edge false 0x100000000, .edge false 0x200000230, .edge false 0x20000069A] := by decide

/-- The block's braces are characters 7B and 7D. -/
theorem test_write_out_nested_repeat :
    writeOut [] [] [.openRepeat 2, .line .nop, .openRepeat 2, .line .clear, .closeRepeat, .closeRepeat] =
      .ok [.nop, .clear, .clear, .nop, .clear, .clear] := by decide

theorem test_repeat_line_is_read :
    lineItem (lineWords [] (".repeat 14 ".toList ++ [Char.ofNat 0x7B] ++ " ; pairs".toList)) = .ok (.openRepeat 14) := by decide

/-! ### The host's duties (spec/70_reset_and_hazards.md R134, R139) -/

theorem test_duties_kept_after_clear :
    hostKeepsDuties 32 false [.edge false 0x100000000, .edge false 0x200000190, .observe .len] = true := by decide

theorem test_duties_broken_by_push_after_power_loss :
    hostKeepsDuties 32 true [.observe .len, .powerLoss, .edge false 0x200000190] = false := by decide

/-! ### Witnesses of the statements' hypotheses -/

theorem witness_DecodeOfEncodeIsTheCommand : (Instr.push 4294967295).wf 32 = true := by decide

theorem witness_EncodeOfDecodeIsTheWord : 0x3FFFFFFFF < 2 ^ (32 + 2) := by decide

theorem witness_OpcodeMapIsTotalAndUnambiguous : 0xFFF < 2 ^ (10 + 2) := by decide

theorem witness_OperandIsTheSumOfThePortBits : decode 32 0x2FFFFFFFF = .ok (.push 0xFFFFFFFF) := by decide

theorem witness_StepRunsTheDecodedCommand :
    let s := at' 0x0000000001#40 1 .space [.edge false 0x200000514]
    s.inputs = [.edge false 0x200000514] ∧ decode s.config.durW 0x200000514 = .ok (.push 1300) := by decide

theorem witness_FetchWordIsRunNext : decodeTableWord 40 0x200000514 = some (.push 1300) := by decide

theorem witness_ResetEdgeWritesResetValues :
    let s := { at' 0x0000000003#40 3 .space [.edge true 0x300000000] with record := some (.refusal .reservedOp) }
    s.inputs = [.edge true 0x300000000] ∧ s.record = some (.refusal .reservedOp) := by decide

theorem witness_ResetHeldHighKeepsResetValues :
    let s := at' 0x0000000003#40 3 .space [.edge true 0, .edge true 0x300000000]
    let u := at' 0x0000000003#40 3 .space [.observe .len, .edge true 0, .observe .len]
    s.inputs = [0, 0x300000000].map (HostEvent.edge true) ++ [] ∧ u.regs = .ready ⟨0x0000000003#40, 3, .space⟩ ∧
      u.inputs = [.observe .len, .edge true 0, .observe .len] := by decide

theorem witness_ResetAndClearGiveTheSameState : (at' 3#40 3 .space [.edge true 0]).inputs = [.edge true 0] := by decide

theorem witness_UninitialisedBlock :
    (uninit [.edge true 0]).regs = .uninit ∧ (uninit [.edge true 0]).inputs = [.edge true 0] ∧
      (uninit [.observe .hex]).inputs = [.observe .hex] := by decide

theorem witness_PowerLossAndStoppedClock :
    (at' 3#40 3 .space [.powerLoss]).inputs = [.powerLoss] ∧ (at' 3#40 3 .space).inputs = [] := by decide

theorem witness_NopAndClearAndReservedEncodings : 0xFFFFFFFF < 2 ^ 32 := by decide

theorem witness_PushPresentsTheNextElement_uninit : State.powerOn.regs = .uninit := by decide

theorem witness_PushPresentsTheNextElement_mark :
    (at' 1#40 1 .mark).regs = .ready ⟨1#40, 1, .mark⟩ ∧ (⟨1#40, 1, .mark⟩ : RegFile).phase = .mark := by decide

theorem witness_PushPresentsTheNextElement_lastRoom :
    (at' 1#40 39 .space).regs = .ready ⟨1#40, 39, .space⟩ ∧ (⟨1#40, 39, .space⟩ : RegFile).phase = .space ∧
      (⟨1#40, 39, .space⟩ : RegFile).len.val < 40 := by decide

theorem witness_PushPresentsTheNextElement_full :
    (at' 1#40 40 .space).regs = .ready ⟨1#40, 40, .space⟩ ∧ (⟨1#40, 40, .space⟩ : RegFile).phase = .space ∧
      (⟨1#40, 40, .space⟩ : RegFile).len.val = 40 := by decide

theorem witness_ReservedCommandIsRefused :
    (at' 3#40 3 .space [.edge true (3 * 2 ^ 32 + 0)]).inputs = [.edge true (3 * 2 ^ State.reset.config.durW + 0)] := by decide

theorem witness_DurFieldOfNopAndClearIsIgnored :
    (1 = 0 ∨ 1 = 1) ∧ 0 < 2 ^ State.reset.config.durW ∧ 4294967295 < 2 ^ State.reset.config.durW := by decide

theorem witness_EveryCommandCompletesWhenReady :
    State.reset.regs = .ready ⟨0#40, 0, .mark⟩ ∧ ∀ d, Instr.push 400 ≠ .reserved d := ⟨rfl, fun _ => by simp⟩

theorem witness_CommandsWriteOnlyTheRegisters :
    isNext (exec (.push 1300) (at' 0#40 0 .space)) (at' 1#40 1 .mark) = true := by decide

theorem witness_StepFrame :
    isNext (step (at' 3#40 3 .mark [.observe .len])) { at' 3#40 3 .mark with observed := [.len 3#6] } = true := by decide

theorem witness_OnlyResetClearPushAndPowerLossWriteRegisters :
    isNext (step (at' 0#40 0 .space [.edge false 0x200000353])) (at' 1#40 1 .mark) = true ∧
      (at' 1#40 1 .mark).regs ≠ (at' 0#40 0 .space [.edge false 0x200000353]).regs := by decide

theorem witness_LenMovesOnlyByPushClearAndReset :
    isNext (step (at' 0#40 39 .space [.edge false 0x200000352])) (at' 0#40 40 .mark) = true ∧
      isNext (step (at' 0#40 40 .space [.edge false 0x100000000])) (at' 0#40 0 .mark) = true := by decide

theorem witness_FullVectorIsKeptUntilClearOrReset :
    (at' 1#40 40 .space).regs = .ready ⟨1#40, 40, .space⟩ ∧ (⟨1#40, 40, .space⟩ : RegFile).len.val = 40 ∧
      ∀ i ∈ [Instr.push 1300, .nop 0], (∃ d, i = .nop d) ∨ ∃ d, i = .push d :=
  ⟨rfl, rfl, by
    intro i hi
    rcases List.mem_cons.1 hi with rfl | hi
    · exact .inr ⟨_, rfl⟩
    · exact .inl ⟨0, List.mem_singleton.1 hi⟩⟩

theorem witness_PhaseShowsOnlyInTheNextPush : State.reset.regs = .ready RegFile.resetValues := rfl

theorem witness_CommandSequenceDeterminesTheRegisters :
    runCommands [.clear 0, .push 400] State.powerOn = .next (at' 0#40 0 .space) ∧ State.powerOn.regs = .uninit ∧
      ∀ i ∈ [Instr.push 400], ∀ d, i ≠ .clear d :=
  ⟨rfl, rfl, fun i hi d => by rw [List.mem_singleton.1 hi]; simp⟩

theorem witness_EveryStepKeepsTheInvariant :
    (at' 0#40 39 .space [.edge false 0x200000514]).Inv ∧
      isNext (step (at' 0#40 39 .space [.edge false 0x200000514])) (at' 0x8000000000#40 40 .mark) = true :=
  ⟨⟨by decide, fun i _ => by simp⟩, by decide⟩

theorem witness_ReachedBitsArePackedFirstLenBits :
    let s := at' 0xFFFFFFFFFF#40 3 .space [.edge false 0x100000000, .edge false 0x200000190]
    s.inputs = .edge false 0x100000000 :: [.edge false 0x200000190] ∧
      decode s.config.durW 0x100000000 = .ok (.clear 0) ∧
      Host.Core.run Sys2Proof.core (1 + 1) s = .next (at' 0#40 0 .space) ∧
      (at' 0#40 0 .space).regs = .ready ⟨0#40, 0, .space⟩ := ⟨rfl, by decide, rfl, rfl⟩

theorem witness_DecodedLengthAndBits : 39 < (decodePayload (List.replicate 81 1690)).length := by decide

theorem witness_MarksNeverAffectTheResult :
    [0, 1300].length = [4294967295, 1300].length ∧ ∀ k, k % 2 = 1 → [0, 1300][k]? = [4294967295, 1300][k]? :=
  ⟨rfl, fun k hk => by rcases k with _ | _ | k <;> simp_all⟩

theorem witness_ShortPayloadDecodesToNothing : [400].length < 2 := by decide

theorem witness_DecodeStopsAtFortyBits : (List.replicate 80 1300).length = 80 := by decide

theorem witness_ThresholdIsStrict : 850 ≤ 850 ∧ 851 ≤ 851 := by decide

theorem witness_TrailingMarkIsIgnored : [400, 1300].length % 2 = 0 := by decide

theorem witness_PackAndShortVectors : (List.replicate 40 true).length ≤ 40 ∧ (List.replicate 39 true).length < 40 := by decide

theorem witness_TrailingZerosKeepTheCode : [true].length + 39 ≤ 40 := by decide

theorem witness_OutputsShowTheRegisters :
    (at' 3#40 3 .mark [.observe .full]).regs = .ready ⟨3#40, 3, .mark⟩ ∧
      (at' 3#40 3 .mark [.observe .full]).inputs = [.observe .full] := by decide

theorem witness_CodeOutputIsPackedVector : RegFile.resetValues.zeroAboveLen := fun i _ => by simp

theorem witness_OutputsLagTheCommandByOneCycle :
    let s := at' 1#40 1 .space [.observe .code, .edge false 0x200000514, .observe .code]
    s.regs = .ready ⟨1#40, 1, .space⟩ ∧ s.inputs = [.observe .code, .edge false 0x200000514, .observe .code] ∧
      decode s.config.durW 0x200000514 = .ok (.push 1300) ∧
      isNext (exec (.push 1300) s) { s with regs := .ready ⟨3#40, 2, .mark⟩ } = true := by decide

theorem witness_StreamedFrameComputesDecodeAndPack :
    let cws := [0x100000000, 0x000000000, 0x200000190, 0x200000514]
    let s := uninit (cws.map (HostEvent.edge false))
    presentsFrame s.config.durW [400, 1300] cws ∧ s.inputs = cws.map (HostEvent.edge false) ++ [] :=
  ⟨⟨[.clear 0, .nop 0, .push 400, .push 1300], 0, by decide, by decide⟩, by decide⟩

theorem witness_HostReadsTheDecodedFrame :
    (∀ d ∈ [400, 1300], d < 2 ^ 32) ∧
      (uninit [.edge false 0x100000000, .edge false 0x200000190, .edge false 0x200000514,
        .observe .len, .observe .code, .observe .hex, .observe .full]).inputs =
      .edge false (1 * 2 ^ 32) :: [400, 1300].map (fun d => .edge false (2 * 2 ^ 32 + d))
        ++ (.observe .len :: .observe .code :: .observe .hex :: .observe .full :: []) := by decide

theorem witness_EmptyResultAfterShortFrame : ([] : List Nat).length < 2 ∧ [400].length < 2 := by decide

theorem witness_FramesWithoutClearRunOn : [400, 1300].length % 2 = 0 ∧ [560].length % 2 = 1 := by decide

theorem witness_PresentedDurationKeepsTheBit : 10 ≤ 10 ∧ (-1 : Int) < 0 ∧ (0 : Int) ≤ 4294967296 := by decide

theorem witness_FaultsComeOnlyFromUninitAndAreKept :
    (uninit [.edge false 0x200000190]).record = none ∧
      isFault (step (uninit [.edge false 0x200000190])) .pushBeforeInit = true := by decide

theorem witness_ReservedCycleIsRefusedForTheRun :
    let s := at' 3#40 3 .space [.edge false (3 * 2 ^ 32 + 5), .edge true 0]
    5 < 2 ^ s.config.durW ∧ s.inputs = [.edge false (3 * 2 ^ s.config.durW + 5), .edge true 0] ∧ s.record = none := by decide

theorem witness_ReservedCycleIsRefusedForTheRun_recorded :
    let s := { uninit [.edge false (3 * 2 ^ 32 + 5)] with record := some (.fault .pushBeforeInit) }
    5 < 2 ^ s.config.durW ∧ s.inputs = [.edge false (3 * 2 ^ s.config.durW + 5)] ∧
      s.record = some (.fault .pushBeforeInit) := by decide

theorem witness_AssemblerReadsNoOtherLine_operands :
    (2 ^ 32 ≤ 4294967296 ∨ 2 ^ 32 ≤ 0) ∧ (2 ^ 32 ≤ 0 ∨ 2 ^ 32 ≤ 4294967296) := by decide

theorem witness_AssemblerRefusesAndEncodes : 4294967295 < 2 ^ 32 ∧ 2 ^ 32 ≤ 4294967296 := by decide

end Sys2Proof.Tests
end

section
/-! PROOFS. The invariant of the registers and of the parameter (spec/10_state.md R22, spec/00_scope.md R9): its rule for each
way a step can write the registers, and the two statements about it. -/

namespace Sys2Proof.Machine

/-- R22 for one way of writing the registers: the reset values, which R131 and R78 write. -/
theorem resetValues_zeroAboveLen : RegFile.resetValues.zeroAboveLen := fun i _ => by simp

/-- R22 for the other way, PUSH: the bit it writes is below the new `LEN`, and `LEN` never shrinks. -/
theorem pushElement_zeroAboveLen (r : RegFile) (d : Nat) (h : r.zeroAboveLen) : (r.pushElement d).zeroAboveLen := by
  intro i hi
  rw [pushElement_len] at hi
  have notWritten : ¬ (r.phase = .space ∧ r.len.val < 40 ∧ i = r.len.val) := by
    rintro ⟨hspace, hroom, rfl⟩
    rw [if_pos ⟨hspace, hroom⟩] at hi
    omega
  rw [pushElement_getLsbD, if_neg notWritten]
  exact h i (Nat.le_of_add_right_le hi)

/-- R11: no step changes the instance's parameter. -/
theorem step_config (s t : State) (h : step s = .next t) : t.config = s.config := by
  obtain ⟨-, rfl⟩ | ⟨e, rest, -, hcase⟩ := step_cases s t h
  · rfl
  · obtain ⟨_, -, rfl⟩ | ⟨_, _, -, -, rfl⟩ | ⟨_, _, -, -, rfl⟩ | ⟨_, _, _, -, -, -, rfl⟩ | ⟨_, _, -, -, rfl⟩ | ⟨-, rfl⟩ := hcase
      <;> rfl

/-- The ways a step can leave the registers: kept, lost with the power, the reset values, or one element pushed. -/
theorem step_regs_cases (s t : State) (h : step s = .next t) :
    t.regs = s.regs ∨ t.regs = .uninit ∨ t.regs = .ready RegFile.resetValues ∨
      ∃ r d, s.regs = .ready r ∧ t.regs = .ready (r.pushElement d) := by
  obtain ⟨-, rfl⟩ | ⟨e, rest, -, hcase⟩ := step_cases s t h
  · exact .inl rfl
  · obtain ⟨_, -, rfl⟩ | ⟨_, _, -, -, rfl⟩ | ⟨_, _, -, -, rfl⟩ | ⟨_, d, r, -, -, hr, rfl⟩ | ⟨_, _, -, -, rfl⟩ | ⟨-, rfl⟩ := hcase
    · exact .inr (.inr (.inl rfl))
    · exact .inl rfl
    · exact .inr (.inr (.inl rfl))
    · exact .inr (.inr (.inr ⟨r, d, hr, rfl⟩))
    · exact .inl rfl
    · exact .inr (.inl rfl)

/-- R22 is kept by every step, whatever the parameter. -/
theorem step_zeroAboveLen (s t : State) (h : step s = .next t) (hs : s.regs.zeroAboveLen) : t.regs.zeroAboveLen := by
  obtain ht | ht | ht | ⟨r, d, hr, ht⟩ := step_regs_cases s t h <;> rw [ht]
  · exact hs
  · trivial
  · exact resetValues_zeroAboveLen
  · rw [hr] at hs
    exact pushElement_zeroAboveLen r d hs

/-- Settles O28: the parameter is a field no step changes, and every way a step can write the registers keeps R22. -/
theorem everyStepKeepsTheInvariant : Obligations.EveryStepKeepsTheInvariant := by
  rintro s t ⟨hconfig, hzero⟩ h
  exact ⟨by rwa [step_config s t h], step_zeroAboveLen s t h hzero⟩

/-- R9: the default `DUR_W` meets its own bound. -/
theorem standard_valid : Config.standard.valid = true := by decide

/-- Settles O27: the reset values have no bit set, and at power-on the registers hold no value. -/
theorem invariantHoldsAtReset : Obligations.InvariantHoldsAtReset :=
  ⟨⟨standard_valid, resetValues_zeroAboveLen⟩, ⟨standard_valid, trivial⟩⟩

end Sys2Proof.Machine
end

section
/-! PROOFS. One step of each kind of event the host may present (spec/10_state.md R25, R30, R31; spec/70_reset_and_hazards.md
R130, R131), and the statements that say no more than that. -/

namespace Sys2Proof.Machine

section OneStep
variable {s : State} {rest : List HostEvent}

/-- R131 with `rst = 1`: the command word is ignored. -/
theorem step_resetEdge {cw : Nat} (h : s.inputs = .edge true cw :: rest) :
    step s = .next { s with regs := .ready RegFile.resetValues, inputs := rest } := by
  rw [step_cons s _ rest h]; rfl

/-- R131 with `rst = 0`: the edge is the command of its word. -/
theorem step_commandEdge {cw : Nat} {i : Instr} (h : s.inputs = .edge false cw :: rest)
    (hd : decode s.config.durW cw = .ok i) : step s = exec i { s with inputs := rest } := by
  rw [step_cons s _ rest h]
  exact commandEdge_ok { s with inputs := rest } cw i hd

/-- R31: a reading in `Ready` remembers the port's value. -/
theorem step_observe {p : OutPort} {r : RegFile} (h : s.inputs = .observe p :: rest) (hr : s.regs = .ready r) :
    step s = .next { s with inputs := rest, observed := s.observed ++ [r.output p] } := by
  rw [step_cons s _ rest h]
  exact observeOutput_ready p { s with inputs := rest } r hr

/-- R122: the registers lose their values. -/
theorem step_powerLoss (h : s.inputs = .powerLoss :: rest) :
    step s = .next { s with regs := .uninit, inputs := rest } := by
  rw [step_cons s _ rest h]; rfl

end OneStep

/-- A table word is read at the default width (R9), whatever the count of its bits. -/
theorem decodeTableWord_eq_some_iff (n cw : Nat) (i : Instr) :
    decodeTableWord n cw = some i ↔ decode Config.standard.durW cw = .ok i := by
  unfold decodeTableWord
  cases decode Config.standard.durW cw <;> simp [Except.toOption]

/-- Settles O6: it is the step at an edge with `rst = 0`. -/
theorem stepRunsTheDecodedCommand : Obligations.StepRunsTheDecodedCommand :=
  fun _ _ _ _ hin hd => step_commandEdge hin hd

/-- Settles O7: `withFetchWord` puts the word first and makes the width the one the table word is read at. -/
theorem fetchWordIsRunNext : Obligations.FetchWordIsRunNext := fun s n cw i h =>
  step_commandEdge (withFetchWord_inputs s n cw) ((decodeTableWord_eq_some_iff n cw i).1 h)

/-- Settles O10: each field of `State.reset` as it is written. -/
theorem resetStateHoldsResetValues : Obligations.ResetStateHoldsResetValues :=
  ⟨rfl, rfl, standard_durW, rfl, rfl⟩

/-- Settles O13: the step at a loss of power, and the step with no event left. -/
theorem powerLossAndStoppedClock : Obligations.PowerLossAndStoppedClock :=
  ⟨fun _ _ hin => step_powerLoss hin, step_nil⟩

end Sys2Proof.Machine
end

section
/-! PROOFS. The frame of the commands and of the step (spec/10_state.md R20, R31, R45): one lemma per field a step may not write,
from the list of what a step can do. -/

namespace Sys2Proof.Machine

/-- R112: no step that answers a next state changes what is recorded. -/
theorem step_record (s t : State) (h : step s = .next t) : t.record = s.record := by
  obtain ⟨-, rfl⟩ | ⟨e, rest, -, hcase⟩ := step_cases s t h
  · rfl
  · obtain ⟨_, -, rfl⟩ | ⟨_, _, -, -, rfl⟩ | ⟨_, _, -, -, rfl⟩ | ⟨_, _, _, -, -, -, rfl⟩ | ⟨_, _, -, -, rfl⟩ | ⟨-, rfl⟩ := hcase
      <;> rfl

/-- A step uses up the first event of the stream, where there is one. -/
theorem step_inputs (s t : State) (h : step s = .next t) : t.inputs = s.inputs.tail := by
  obtain ⟨hin, rfl⟩ | ⟨e, rest, hin, hcase⟩ := step_cases s t h <;> rw [hin]
  · rfl
  · obtain ⟨_, -, rfl⟩ | ⟨_, _, -, -, rfl⟩ | ⟨_, _, -, -, rfl⟩ | ⟨_, _, _, -, -, -, rfl⟩ | ⟨_, _, -, -, rfl⟩ | ⟨-, rfl⟩ := hcase
      <;> rfl

/-- R31: the list of readings is kept, or the step is a reading, which leaves the registers. -/
theorem step_observed (s t : State) (h : step s = .next t) :
    t.observed = s.observed ∨ ∃ o, t.observed = s.observed ++ [o] ∧ t.regs = s.regs := by
  obtain ⟨-, rfl⟩ | ⟨e, rest, -, hcase⟩ := step_cases s t h
  · exact .inl rfl
  · obtain ⟨_, -, rfl⟩ | ⟨_, _, -, -, rfl⟩ | ⟨_, _, -, -, rfl⟩ | ⟨_, _, _, -, -, -, rfl⟩ | ⟨p, r, -, -, rfl⟩ | ⟨-, rfl⟩ := hcase
    · exact .inl rfl
    · exact .inl rfl
    · exact .inl rfl
    · exact .inl rfl
    · exact .inr ⟨r.output p, rfl, rfl⟩
    · exact .inl rfl

/-- Settles O20: a command that answers a next state is NOP, CLEAR or a PUSH in `Ready`. -/
theorem commandsWriteOnlyTheRegisters : Obligations.CommandsWriteOnlyTheRegisters := by
  intro i s t h
  obtain ⟨_, -, hx⟩ | ⟨_, -, hx⟩ | ⟨_, _, -, -, hx⟩ | ⟨_, -, -, hx⟩ | ⟨_, -, hx⟩ := exec_cases i s <;> rw [hx] at h <;> cases h
  · rfl
  · rfl
  · rfl

/-- Settles O21: field by field; the readings gained are none or one. -/
theorem stepFrame : Obligations.StepFrame := by
  intro s t h
  refine ⟨step_config s t h, step_record s t h, step_inputs s t h, ?_⟩
  obtain hobs | ⟨o, hobs, hregs⟩ := step_observed s t h
  · exact ⟨[], by rw [hobs, List.append_nil], Nat.zero_le 1, fun hne => absurd rfl hne⟩
  · exact ⟨[o], hobs, Nat.le_refl 1, fun _ => hregs⟩

end Sys2Proof.Machine
end

section
/-! PROOFS. What moves the registers, `LEN` and `PHASE` (spec/10_state.md R20, R23, R29). -/

namespace Sys2Proof.Machine

/-- Settles O22: in each other case of a step (no event, NOP, a reading) the registers are those before it. -/
theorem onlyResetClearPushAndPowerLossWriteRegisters : Obligations.OnlyResetClearPushAndPowerLossWriteRegisters := by
  intro s t h hne
  obtain ⟨-, rfl⟩ | ⟨e, rest, hin, hcase⟩ := step_cases s t h
  · exact absurd rfl hne
  refine ⟨e, rest, hin, ?_⟩
  obtain ⟨cw, he, -⟩ | ⟨_, _, -, -, rfl⟩ | ⟨cw, d, he, hd, -⟩ | ⟨cw, d, _, he, hd, -, -⟩ | ⟨_, _, -, -, rfl⟩ | ⟨he, -⟩ := hcase
  · exact .inl ⟨cw, he⟩
  · exact absurd rfl hne
  · exact .inr (.inr ⟨cw, d, he, .inl hd⟩)
  · exact .inr (.inr ⟨cw, d, he, .inr hd⟩)
  · exact absurd rfl hne
  · exact .inr (.inl he)

/-- R23: a PUSH keeps `LEN`, or increments it below 40. -/
theorem pushElement_len_cases (r : RegFile) (d : Nat) :
    (r.pushElement d).len = r.len ∨ (r.len.val < 40 ∧ (r.pushElement d).len.val = r.len.val + 1) := by
  by_cases hgrows : r.phase = .space ∧ r.len.val < 40
  · exact .inr ⟨hgrows.2, by rw [pushElement_len, if_pos hgrows]⟩
  · exact .inl (Fin.ext (by rw [pushElement_len, if_neg hgrows, Nat.add_zero]))

/-- Settles O23: the registers are the reset values after a reset edge and after CLEAR, those of one PUSH after PUSH, and else
kept; a loss of power leaves none. -/
theorem lenMovesOnlyByPushClearAndReset : Obligations.LenMovesOnlyByPushClearAndReset := by
  intro s t r r' h hr hr'
  have len_of_kept (hregs : s.regs = .ready r') : r'.len = r.len := by
    rw [hr] at hregs; cases hregs; rfl
  obtain ⟨-, rfl⟩ | ⟨e, rest, hin, hcase⟩ := step_cases s t h
  · exact .inl (len_of_kept hr')
  obtain ⟨cw, rfl, rfl⟩ | ⟨_, _, -, -, rfl⟩ | ⟨cw, d, rfl, hd, rfl⟩ | ⟨cw, d, r₀, rfl, hd, hr₀, rfl⟩ | ⟨_, _, -, -, rfl⟩ |
    ⟨-, rfl⟩ := hcase
  · cases hr'; exact .inr (.inr ⟨rfl, true, cw, rest, hin, .inl rfl⟩)
  · exact .inl (len_of_kept hr')
  · cases hr'; exact .inr (.inr ⟨rfl, false, cw, rest, hin, .inr ⟨d, hd⟩⟩)
  · rw [hr] at hr₀; cases hr₀; cases hr'
    obtain hkept | ⟨hroom, hgrown⟩ := pushElement_len_cases r d
    · exact .inl hkept
    · exact .inr (.inl ⟨hroom, hgrown, cw, d, rest, hin, hd⟩)
  · exact .inl (len_of_kept hr')
  · cases hr'

/-- R29: no output port reads `PHASE`. -/
theorem output_of_phase (r : RegFile) (p : Phase) (port : OutPort) :
    RegFile.output { r with phase := p } port = r.output port := by
  cases port <;> rfl

/-- Settles O25: no port reads `PHASE`, and PUSH moves `LEN` by its own law. -/
theorem phaseShowsOnlyInTheNextPush : Obligations.PhaseShowsOnlyInTheNextPush :=
  ⟨output_of_phase, fun s r d hr => ⟨r.pushElement d, exec_push_ready d s r hr, pushElement_len r d⟩⟩

end Sys2Proof.Machine
end

section
/-! PROOFS. R22 along a run (spec/10_state.md), and what it says of `BITS` and of `code_o` (spec/41_code_packer.md R92, R94). -/

namespace Sys2Proof.Machine

/-- R22 is kept by every run. -/
theorem run_zeroAboveLen (n : Nat) (s t : State) (h : Host.Core.run Sys2Proof.core n s = .next t)
    (hs : s.regs.zeroAboveLen) : t.regs.zeroAboveLen := by
  induction n generalizing s with
  | zero => rw [run_zero] at h; cases h; exact hs
  | succ n ih =>
    cases hstep : step s with
    | next u =>
      rw [run_succ_next n s u hstep] at h
      exact ih u h (step_zeroAboveLen s u hstep hs)
    | fault f => rw [run_succ_fault n s f hstep] at h; cases h
    | refused x => rw [run_succ_refused n s x hstep] at h; cases h

/-- The two edges that make a state from which R22 holds: a reset edge and CLEAR (R78, R131, R133). -/
theorem step_resetOrClear {s : State} {b : Bool} {cw : Nat} {rest : List HostEvent} (hin : s.inputs = .edge b cw :: rest)
    (hevent : b = true ∨ ∃ d, decode s.config.durW cw = .ok (.clear d)) :
    step s = .next { s with regs := .ready RegFile.resetValues, inputs := rest } := by
  cases b with
  | true => exact step_resetEdge hin
  | false =>
    obtain ⟨d, hd⟩ := hevent.resolve_left Bool.false_ne_true
    rw [step_commandEdge hin hd, exec_clear]; rfl

/-- R20, R21: a bit of the BitVector in `BITS` below `LEN`. -/
theorem vector_getD (r : RegFile) (k : Nat) : r.vector.getD k false = if k < r.len.val then r.bits.getLsbD k else false := by
  by_cases hk : k < r.len.val <;> simp [RegFile.vector, hk]

/-- R22, R92: with no bit set at or above `LEN`, `BITS` is the packed value of its first `LEN` bits. -/
theorem bits_eq_pack_vector (r : RegFile) (h : r.zeroAboveLen) : r.bits = pack r.vector := by
  refine BitVec.eq_of_getLsbD_eq fun k hk => ?_
  rw [getLsbD_pack r.vector k hk, vector_getD]
  split
  case isTrue => rfl
  case isFalse hge => exact h k (Nat.le_of_not_lt hge)

/-- R14, R79: PUSH writes no bit but bit `LEN`. -/
theorem pushElement_getLsbD_of_ne (r : RegFile) (d : Nat) {k : Nat} (hk : k ≠ r.len.val) :
    (r.pushElement d).bits.getLsbD k = r.bits.getLsbD k := by
  rw [pushElement_getLsbD, if_neg fun hwrites => hk hwrites.2.2]

/-- Settles O29: the first step writes the reset values, which have R22, and every later step keeps it. -/
theorem reachedBitsArePackedFirstLenBits : Obligations.ReachedBitsArePackedFirstLenBits := by
  refine ⟨?_, fun s r d hr => ⟨r.pushElement d, exec_push_ready d s r hr, fun k _ hk => pushElement_getLsbD_of_ne r d hk⟩⟩
  intro s b cw rest hin hevent n t r hrun hr
  rw [run_succ_next n s _ (step_resetOrClear hin hevent)] at hrun
  have hzero : t.regs.zeroAboveLen := run_zeroAboveLen n _ t hrun resetValues_zeroAboveLen
  rw [hr] at hzero
  exact ⟨fun k hk _ => hzero k hk, bits_eq_pack_vector r hzero⟩

/-- Settles O45: `code_o` is `BITS`. -/
theorem codeOutputIsPackedVector : Obligations.CodeOutputIsPackedVector :=
  fun r h => congrArg Observation.code (bits_eq_pack_vector r h)

end Sys2Proof.Machine
end

section
/-! PROOFS. The output ports read (spec/10_state.md R31), and the bytes of `hex_o` (spec/20_memory.md R44, spec/41_code_packer.md
R99). -/

namespace Sys2Proof.Machine

/-- R44, R99: the two bytes before the digits, `0` and `x`, are the most significant ones; the ten digits' bytes are dropped one by
one from the right. -/
theorem hexBus_leadingBytes (c : Code) :
    (hexBus c).extractLsb' 88 8 = 0x30#8 ∧ (hexBus c).extractLsb' 80 8 = 0x78#8 := by
  constructor <;> (repeat refine (BitVec.extractLsb'_append_eq_of_le (by decide)).trans ?_)
  · rfl
  · exact BitVec.extractLsb'_append_eq_right

/-- R44, R99: the byte of digit `j`; the bytes of the digits after it are dropped one by one from the right. -/
theorem hexBus_digitByte (c : Code) (j : Nat) (h : j < 10) :
    (hexBus c).extractLsb' (72 - 8 * j) 8 = ascii (nibble c j) := by
  interval_cases j <;> (repeat refine (BitVec.extractLsb'_append_eq_of_le (by decide)).trans ?_) <;>
    exact BitVec.extractLsb'_append_eq_right

/-- R44: `hex_o` carries the code of character `j` of the string on its byte `j` from the left. -/
theorem hexBus_byte (c : Code) (j : Nat) (h : j < 12) :
    ∃ ch, (hex c)[j]? = some ch ∧ (hexBus c).extractLsb' (88 - 8 * j) 8 = BitVec.ofNat 8 ch.toNat := by
  obtain ⟨hzero, hx⟩ := hexBus_leadingBytes c
  match j with
  | 0 => exact ⟨'0', rfl, hzero⟩
  | 1 => exact ⟨'x', rfl, hx⟩
  | j + 2 =>
    have hj : j < 10 := by omega
    refine ⟨digit (nibble c j), by rw [Nat.add_comm]; exact hex_getElem? c j hj, ?_⟩
    rw [show 88 - 8 * (j + 2) = 72 - 8 * j by omega, hexBus_digitByte c j hj, ascii_eq_digit]

/-- Settles O44: one step appends the port's value, and each port by its own law. -/
theorem outputsShowTheRegisters : Obligations.OutputsShowTheRegisters := by
  intro s r p rest hr hin
  refine ⟨r.output p, step_observe hin hr, ?_⟩
  cases p with
  | len => exact ⟨r.lenO, rfl, lenO_toNat r⟩
  | full => exact ⟨r.fullO, rfl, fullO_eq_one_iff r⟩
  | code => rfl
  | hex =>
    refine ⟨r.hexO, rfl, fun j hj => ?_⟩
    obtain ⟨ch, hch, hbyte⟩ := hexBus_byte r.bits j hj
    rw [List.getD_eq_getElem?_getD, hch]
    exact hbyte

end Sys2Proof.Machine
end

section
/-! PROOFS. The string on `hex_o` (spec/20_memory.md R44). -/

namespace Sys2Proof.Machine

/-- Settles O42: `hexBus_byte` for every Code and every character of the string. -/
theorem hexBusCarriesTheString : Obligations.HexBusCarriesTheString := hexBus_byte

end Sys2Proof.Machine
end

section
/-! PROOFS. The command word (spec/30_encoding.md R50 to R53): the decoder and the encoder are inverse to each other, each word has
one row of the opcode map, and the operand is the value of the port's bits. -/

namespace Sys2Proof

/-- R50 to R53: the decoder reads a command from exactly one word, the command's own, and only where its duration fits the port. -/
theorem decode_eq_ok_iff_commandWord (w cw : Nat) (i : Instr) :
    decode w cw = .ok i ↔ i.dur < 2 ^ w ∧ commandWord w i.opcode i.dur = cw := by
  constructor
  · intro h
    obtain ⟨hcw, rfl⟩ := (decode_eq_ok_iff w cw i).1 h
    rw [dur_commandOf, opcode_commandOf]
    exact ⟨durField_lt w cw, commandWord_fields w cw hcw⟩
  · rintro ⟨hfits, rfl⟩
    rw [decode_commandWord w i.opcode i.dur hfits, commandOf_opcode]

/-- R50: every command word is read as a command. -/
theorem exists_decode_eq_ok {w cw : Nat} (h : cw < 2 ^ (w + 2)) : ∃ i, decode w cw = .ok i :=
  ⟨_, (decode_eq_ok_iff w cw _).2 ⟨h, rfl⟩⟩

/-- Settles O2: the word is `commandWord` of the command's opcode and duration. -/
theorem decodeOfEncodeIsTheCommand : Obligations.DecodeOfEncodeIsTheCommand := by
  intro w i hwf
  have hfits : i.dur < 2 ^ w := (wf_iff w i).1 hwf
  exact ⟨commandWord w i.opcode i.dur, encode_of_fits w i hfits, commandWord_lt w i.opcode i.dur hfits,
    (decode_eq_ok_iff_commandWord w _ i).2 ⟨hfits, rfl⟩⟩

/-- Settles O3: the command read from a word fits the port, and the word is the command's own. -/
theorem encodeOfDecodeIsTheWord : Obligations.EncodeOfDecodeIsTheWord := by
  intro w cw hcw
  obtain ⟨i, hi⟩ := exists_decode_eq_ok hcw
  obtain ⟨hfits, hword⟩ := (decode_eq_ok_iff_commandWord w cw i).1 hi
  exact ⟨i, hi, (wf_iff w i).2 hfits, by rw [encode_of_fits w i hfits, hword]⟩

/-- R53: the row of a command's mnemonic selects the command's word. -/
theorem exists_row_selects_commandWord (w : Nat) (i : Instr) (h : i.dur < 2 ^ w) :
    ∃ row ∈ opcodeTable w, row.mnemonic = i.mnemonic ∧ row.selects (commandWord w i.opcode i.dur) = true := by
  have hwf : i.wf w = true := (wf_iff w i).2 h
  cases i with
  | nop d => exact Laws.OpcodeRow.nop d w hwf
  | clear d => exact Laws.OpcodeRow.clear d w hwf
  | push d => exact Laws.OpcodeRow.push d w hwf
  | reserved d => exact Laws.OpcodeRow.reserved d w hwf

/-- R51, R53: every row looks at the two bits of `op`. -/
theorem bitsMask_of_mem_opcodeTable {w : Nat} {row : OpcodeRow} (h : row ∈ opcodeTable w) : row.bitsMask = 3 <<< w := by
  simp only [opcodeTable, List.mem_cons, List.not_mem_nil, or_false] at h
  obtain rfl | rfl | rfl | rfl := h <;> rfl

/-- R53: no two rows ask for the same opcode. -/
theorem opcodeTable_bitsMatch_nodup (w : Nat) : ((opcodeTable w).map OpcodeRow.bitsMatch).Nodup := by
  have hshift : Function.Injective (· <<< w : Nat → Nat) := fun a b h => by
    simpa [Nat.shiftLeft_eq] using h
  exact List.Nodup.map (l := [0, 1, 2, 3]) hshift (by decide)

/-- R53: the rows have one mask and distinct matches, so at most one selects a word. -/
theorem opcodeTable_row_unique {w cw : Nat} {row other : OpcodeRow} (hrow : row ∈ opcodeTable w) (hother : other ∈ opcodeTable w)
    (hselects : row.selects cw = true) (hselects' : other.selects cw = true) : other = row := by
  rw [selects_iff, bitsMask_of_mem_opcodeTable hrow] at hselects
  rw [selects_iff, bitsMask_of_mem_opcodeTable hother] at hselects'
  exact List.inj_on_of_nodup_map (opcodeTable_bitsMatch_nodup w) hother hrow (hselects'.symm.trans hselects)

/-- Settles O4: the row is that of the decoded command, whose word the given one is. -/
theorem opcodeMapIsTotalAndUnambiguous : Obligations.OpcodeMapIsTotalAndUnambiguous := by
  refine ⟨rfl, fun w cw hcw => ?_⟩
  obtain ⟨i, hi⟩ := exists_decode_eq_ok hcw
  obtain ⟨hfits, rfl⟩ := (decode_eq_ok_iff_commandWord w cw i).1 hi
  obtain ⟨row, hrow, hname, hselects⟩ := exists_row_selects_commandWord w i hfits
  exact ⟨i, row, hi, hrow, hselects, hname, fun other hother hselects' =>
    opcodeTable_row_unique hrow hother hselects hselects'⟩

/-- R52: the field `dur`, one port bit at a time from the least significant. -/
theorem durField_eq_sum (w cw : Nat) :
    durField w cw = ((List.range w).map (fun k => (cw.testBit k).toNat * 2 ^ k)).sum := by
  induction w with
  | zero => exact Nat.mod_one cw
  | succ w ih =>
    rw [List.range_succ, List.map_append, List.sum_append, ← ih, List.map_singleton, List.sum_singleton,
      durField, Nat.pow_succ, Nat.mod_mul, Nat.toNat_testBit, durField, Nat.mul_comm]

/-- Settles O5: the operand is the field `dur`. -/
theorem operandIsTheSumOfThePortBits : Obligations.OperandIsTheSumOfThePortBits := by
  intro w cw i hi
  obtain ⟨-, rfl⟩ := (decode_eq_ok_iff w cw i).1 hi
  rw [dur_commandOf]
  exact ⟨durField_eq_sum w cw, Nat.le_sub_one_of_lt (durField_lt w cw)⟩

end Sys2Proof
end

section
/-! PROOFS. The steps of the words of each opcode (spec/30_encoding.md R53 to R55), and what a step refuses
(spec/60_exceptions.md R112). -/

namespace Sys2Proof.Machine

/-- R53: a word with `op = 00`. -/
theorem decode_nopWord {w d : Nat} (h : d < 2 ^ w) : decode w (0 * 2 ^ w + d) = .ok (.nop d) :=
  decode_commandWord w 0b00#2 d h

/-- R53: a word with `op = 01`. -/
theorem decode_clearWord {w d : Nat} (h : d < 2 ^ w) : decode w (1 * 2 ^ w + d) = .ok (.clear d) :=
  decode_commandWord w 0b01#2 d h

/-- R53: a word with `op = 11`. -/
theorem decode_reservedWord {w d : Nat} (h : d < 2 ^ w) : decode w (3 * 2 ^ w + d) = .ok (.reserved d) :=
  decode_commandWord w 0b11#2 d h

/-- R54: an edge with a NOP word only uses up its event. -/
theorem step_nopWord (s : State) {d : Nat} (rest : List HostEvent) (h : d < 2 ^ s.config.durW) :
    step { s with inputs := .edge false (0 * 2 ^ s.config.durW + d) :: rest } = .next { s with inputs := rest } :=
  step_commandEdge (s := { s with inputs := _ :: rest }) rfl (decode_nopWord h)

/-- R54: an edge with a CLEAR word writes the reset values, whatever its duration. -/
theorem step_clearWord (s : State) {d : Nat} (rest : List HostEvent) (h : d < 2 ^ s.config.durW) :
    step { s with inputs := .edge false (1 * 2 ^ s.config.durW + d) :: rest } =
      .next { s with inputs := rest }.writeResetValues :=
  step_commandEdge (s := { s with inputs := _ :: rest }) rfl (decode_clearWord h)

/-- Settles O18: neither step's result names the duration. -/
theorem durFieldOfNopAndClearIsIgnored : Obligations.DurFieldOfNopAndClearIsIgnored := by
  rintro s op d d' rest (rfl | rfl) hd hd'
  · rw [step_nopWord s rest hd, step_nopWord s rest hd']
  · rw [step_clearWord s rest hd, step_clearWord s rest hd']

/-- Settles O17: its meaning and its word, and with `rst = 1` the reset edge. -/
theorem reservedCommandIsRefused : Obligations.ReservedCommandIsRefused :=
  ⟨exec_reserved, fun _ _ h => decode_reservedWord h, fun _ _ _ hin => step_resetEdge hin⟩

/-- R55, R112: the only command refused is the reserved one. -/
theorem exec_eq_refused_iff (i : Instr) (s : State) (x : Refusal) :
    exec i s = .refused x ↔ x = .reservedOp ∧ ∃ d, i = .reserved d := by
  obtain ⟨d, rfl, hx⟩ | ⟨d, rfl, hx⟩ | ⟨d, _, rfl, -, hx⟩ | ⟨d, rfl, -, hx⟩ | ⟨d, rfl, hx⟩ := exec_cases i s <;>
    simp [hx, eq_comm]

/-- An edge with `rst = 0` is refused for its command, or because its number is no command word. -/
theorem commandEdge_eq_refused_iff (cw : Nat) (s : State) (x : Refusal) :
    commandEdge cw s = .refused x ↔
      (x = .reservedOp ∧ ∃ d, decode s.config.durW cw = .ok (.reserved d)) ∨
      ∃ e, decode s.config.durW cw = .error e ∧ x = .badCommandWord e := by
  cases hd : decode s.config.durW cw with
  | ok i => simp [commandEdge_ok s cw i hd, exec_eq_refused_iff]
  | error e => simp [commandEdge_error s cw e hd, eq_comm]

/-- No other event is refused. -/
theorem hostEvent_eq_refused_iff (e : HostEvent) (s : State) (x : Refusal) :
    hostEvent e s = .refused x ↔ ∃ cw, e = .edge false cw ∧ commandEdge cw s = .refused x := by
  match e with
  | .edge false cw => simp [hostEvent]
  | .edge true cw => simp [hostEvent]
  | .observe p =>
    cases hr : s.regs with
    | uninit => simp [hostEvent, observeOutput_uninit p s hr]
    | ready r => simp [hostEvent, observeOutput_ready p s r hr]
  | .powerLoss => simp [hostEvent]

/-- Settles O55: a refused step has an event, and it is an edge with `rst = 0`. -/
theorem refusalsComeOnlyFromBadWords : Obligations.RefusalsComeOnlyFromBadWords := by
  intro s x
  cases hin : s.inputs with
  | nil => simp [step_nil s hin]
  | cons e rest =>
    rw [step_cons s e rest hin, hostEvent_eq_refused_iff]
    simp [commandEdge_eq_refused_iff]

end Sys2Proof.Machine
end

section
/-! PROOFS. The listing's events (spec/30_encoding.md R57 to R59): the words of each line, and `pair` and `.repeat` written out. -/

namespace Sys2Proof.Machine

/-- R57: the edge of a command that fits the port. -/
theorem commandEvent_of_fits (w : Nat) (i : Instr) (h : i.dur < 2 ^ w) :
    commandEvent w i = .ok (.edge false (commandWord w i.opcode i.dur)) := by
  simp [commandEvent, encode_of_fits w i h]

/-- R57: a command that does not fit has no edge. -/
theorem commandEvent_of_too_wide (w : Nat) (i : Instr) (h : 2 ^ w ≤ i.dur) :
    commandEvent w i = .error (.code .durationTooWide) := by
  simp [commandEvent, encode_of_too_wide w i h]

/-- R57: the word of `nop`, whose `cmd_dur` is 0. -/
theorem nop_events (w : Nat) : AsmLine.nop.events w = .ok [.edge false 0] := by
  rw [AsmLine.events, commandEvent_of_fits w (.nop 0) (Nat.two_pow_pos w)]
  simp [commandWord, Instr.opcode, Instr.dur]

/-- R57: the word of `clear`, whose `cmd_dur` is 0. -/
theorem clear_events (w : Nat) : AsmLine.clear.events w = .ok [.edge false (2 ^ w)] := by
  rw [AsmLine.events, commandEvent_of_fits w (.clear 0) (Nat.two_pow_pos w)]
  simp [commandWord, Instr.opcode, Instr.dur]

/-- R57: the edge of a PUSH that fits the port. -/
theorem commandEvent_push {w d : Nat} (h : d < 2 ^ w) : commandEvent w (.push d) = .ok (.edge false (2 * 2 ^ w + d)) :=
  commandEvent_of_fits w (.push d) h

/-- R57: the word of `push`. -/
theorem push_events {w d : Nat} (h : d < 2 ^ w) : (AsmLine.push d).events w = .ok [.edge false (2 * 2 ^ w + d)] := by
  rw [AsmLine.events, commandEvent_push h]; rfl

/-- R57: `push` refuses an operand that does not fit. -/
theorem push_events_of_too_wide {w d : Nat} (h : 2 ^ w ≤ d) :
    (AsmLine.push d).events w = .error (.code .durationTooWide) := by
  rw [AsmLine.events, commandEvent_of_too_wide w (.push d) h]; rfl

/-- R58: the words of `pair`, the mark first. -/
theorem pair_events {w m s : Nat} (hm : m < 2 ^ w) (hs : s < 2 ^ w) :
    (AsmLine.pair m s).events w = .ok [.edge false (2 * 2 ^ w + m), .edge false (2 * 2 ^ w + s)] := by
  rw [AsmLine.events, commandEvent_push hm, commandEvent_push hs]; rfl

/-- R58: `pair` is refused like its PUSHes, by its first operand that does not fit. -/
theorem pair_events_of_too_wide {w m s : Nat} (h : 2 ^ w ≤ m ∨ 2 ^ w ≤ s) :
    (AsmLine.pair m s).events w = .error (.code .durationTooWide) := by
  by_cases hm : m < 2 ^ w
  · have hs : 2 ^ w ≤ s := h.resolve_left (Nat.not_le.2 hm)
    rw [AsmLine.events, commandEvent_push hm, commandEvent_of_too_wide w (.push s) hs]; rfl
  · rw [AsmLine.events, commandEvent_of_too_wide w (.push m) (Nat.not_lt.1 hm)]; rfl

/-- Settles O57: the lines' words, one line of text, and one word as text. -/
theorem assemblerEncodesCommands : Obligations.AssemblerEncodesCommands :=
  ⟨fun w => ⟨nop_events w, clear_events w⟩, fun _ _ h => push_events h, fun _ _ h => push_events_of_too_wide h,
    by decide, by decide⟩

/-- Settles O1: the table's ten lines, each evaluated. -/
theorem encodingExamplesOfTheSpec : Obligations.EncodingExamplesOfTheSpec := by
  unfold Obligations.EncodingExamplesOfTheSpec
  decide

/-- The events of a listing whose first line has some. -/
theorem assemble_cons_of_ok {w : Nat} {l : AsmLine} {events : List HostEvent} (h : l.events w = .ok events)
    (rest : List AsmLine) : assemble w (l :: rest) = (assemble w rest).map (events ++ ·) := by
  rw [assemble, h]
  cases assemble w rest <;> rfl

/-- R58: lines of a listing that are commands are written out as they stand. -/
theorem writeOut_lines (outer : List (Nat × List AsmLine)) (before lines : List AsmLine) (rest : List LineItem) :
    writeOut outer before (lines.map .line ++ rest) = writeOut outer (before ++ lines) rest := by
  induction lines generalizing before with
  | nil => rw [List.map_nil, List.nil_append, List.append_nil]
  | cons l lines ih => rw [List.map_cons, List.cons_append, writeOut, ih, List.append_assoc, List.singleton_append]

/-- R58: a block without blocks inside it is written out in place, `n` times. -/
theorem writeOut_repeat (outer : List (Nat × List AsmLine)) (before lines : List AsmLine) (n : Nat) (rest : List LineItem) :
    writeOut outer before (.openRepeat n :: lines.map .line ++ .closeRepeat :: rest) =
      writeOut outer (before ++ (List.replicate n lines).flatten) rest := by
  rw [List.cons_append, writeOut, writeOut_lines, writeOut, List.nil_append]

/-- Settles O58: `pair` and its two PUSHes have the same events, and a block's lines are written out in place. -/
theorem assemblerExpandsPairResetAndRepeat : Obligations.AssemblerExpandsPairResetAndRepeat := by
  refine ⟨fun w m s hm hs => ?_, fun _ => rfl, fun n lines rest => writeOut_repeat [] [] lines n rest, by decide, by decide⟩
  have hpair : assemble w [.pair m s] = .ok [.edge false (2 * 2 ^ w + m), .edge false (2 * 2 ^ w + s)] := by
    rw [assemble_cons_of_ok (pair_events hm hs)]; rfl
  have hpushes : assemble w [.push m, .push s] = .ok [.edge false (2 * 2 ^ w + m), .edge false (2 * 2 ^ w + s)] := by
    rw [assemble_cons_of_ok (push_events hm), assemble_cons_of_ok (push_events hs)]; rfl
  exact ⟨hpair.trans hpushes.symm, hpair⟩

end Sys2Proof.Machine
end

section
/-! PROOFS. How a line of a listing is read (spec/30_encoding.md R57, R58), by the number of its words. -/

namespace Sys2Proof.Machine

/-- A one-word line. -/
theorem lineItem_one_eq_ok_iff (w : List Char) (item : LineItem) :
    lineItem [w] = .ok item ↔
      (w = "nop".toList ∧ item = .line .nop) ∨ (w = "clear".toList ∧ item = .line .clear) ∨
      (w = ".reset".toList ∧ item = .line .reset) ∨ (w = [closeBrace] ∧ item = .closeRepeat) := by
  rw [lineItem_one]
  constructor
  · intro h
    split_ifs at h with hnop hclear hreset hclose <;> cases h
    · exact .inl ⟨hnop, rfl⟩
    · exact .inr (.inl ⟨hclear, rfl⟩)
    · exact .inr (.inr (.inl ⟨hreset, rfl⟩))
    · exact .inr (.inr (.inr ⟨hclose, rfl⟩))
  · rintro (⟨rfl, rfl⟩ | ⟨rfl, rfl⟩ | ⟨rfl, rfl⟩ | ⟨rfl, rfl⟩) <;> rfl

/-- A result taken further is a value exactly where it was one. -/
theorem except_map_eq_ok_iff {ε α β : Type} (x : Except ε α) (f : α → β) (b : β) : x.map f = .ok b ↔ ∃ a, x = .ok a ∧ b = f a := by
  cases x <;> simp [Except.map, eq_comm]

/-- The same where the next operation may refuse too. -/
theorem except_bind_eq_ok_iff {ε α β : Type} (x : Except ε α) (f : α → Except ε β) (b : β) :
    x.bind f = .ok b ↔ ∃ a, x = .ok a ∧ f a = .ok b := by
  cases x <;> simp [Except.bind]

/-- A guarded line is read only where its guard holds. -/
theorem ite_badLine_eq_ok_iff (p : Prop) [Decidable p] (x : Except AsmError LineItem) (item : LineItem) :
    (if p then x else .error .badLine) = .ok item ↔ p ∧ x = .ok item := by
  split <;> simp_all

/-- A two-word line: `push` and a literal. -/
theorem lineItem_two_eq_ok_iff (w d : List Char) (item : LineItem) :
    lineItem [w, d] = .ok item ↔ w = "push".toList ∧ ∃ n, number d = .ok n ∧ item = .line (.push n) := by
  rw [lineItem_two, ite_badLine_eq_ok_iff, except_map_eq_ok_iff]

/-- A three-word line: `.repeat`, a literal and the opening brace. -/
theorem lineItem_three_eq_ok_iff (w d b : List Char) (item : LineItem) :
    lineItem [w, d, b] = .ok item ↔
      (w = ".repeat".toList ∧ b = [openBrace]) ∧ ∃ n, number d = .ok n ∧ item = .openRepeat n := by
  rw [lineItem_three, ite_badLine_eq_ok_iff, except_map_eq_ok_iff]

/-- A four-word line: `pair` and two literals with a comma between them. -/
theorem lineItem_four_eq_ok_iff (w d comma e : List Char) (item : LineItem) :
    lineItem [w, d, comma, e] = .ok item ↔
      (w = "pair".toList ∧ comma = [',']) ∧
        ∃ m, number d = .ok m ∧ ∃ n, number e = .ok n ∧ item = .line (.pair m n) := by
  simp only [lineItem_four, ite_badLine_eq_ok_iff, except_bind_eq_ok_iff, except_map_eq_ok_iff]

/-- Settles O59: by the number of the line's words. -/
theorem assemblerReadsNoOtherLine : Obligations.AssemblerReadsNoOtherLine := by
  refine ⟨fun words item => ?_, fun _ _ _ h => pair_events_of_too_wide h⟩
  match words with
  | [] => simp [eq_comm (a := item)]
  | [w] => simp [lineItem_one_eq_ok_iff]
  | [w, d] => simp [lineItem_two_eq_ok_iff]
  | [w, d, b] => simp [lineItem_three_eq_ok_iff, and_assoc]
  | [w, d, comma, e] => simp [lineItem_four_eq_ok_iff, and_assoc]
  | a :: b :: c :: d :: e :: rest => simp [lineItem_long]

end Sys2Proof.Machine
end

section
/-! PROOFS. The reference function `decode` (spec/40_pdm_decoder.md R70 to R76): each statement is read off the one law that gives
every bit of the result by the element it comes from. -/

namespace Sys2Proof.Machine

/-- R76, with room for `room` bits: bit `k` is the bit of the space at index `2k + 1`. -/
theorem decodeWalk_getElem? (room : Nat) (P : List Nat) (k : Nat) :
    (decodeWalk room P)[k]? = if k < room then P[2 * k + 1]?.map spaceBit else none := by
  induction room generalizing P k with
  | zero => simp
  | succ room ih =>
    match P, k with
    | [], k => simp
    | [m], k => simp
    | m :: s :: P, 0 => simp
    | m :: s :: P, k + 1 => simp [ih P k, Nat.mul_add]

/-- R76, with the room for 40 bits that R70 gives. -/
theorem decodePayload_getElem? (P : List Nat) (k : Nat) :
    (decodePayload P)[k]? = if k < 40 then P[2 * k + 1]?.map spaceBit else none :=
  decodeWalk_getElem? 40 P k

/-- R76. -/
theorem decodePayload_length (P : List Nat) : (decodePayload P).length = min (P.length / 2) 40 :=
  decodeWalk_length 40 P

/-- R70: only the elements at odd indices below 80 count. -/
theorem decodePayload_congr {P Q : List Nat} (h : ∀ k < 40, P[2 * k + 1]? = Q[2 * k + 1]?) :
    decodePayload P = decodePayload Q := by
  refine List.ext_getElem? fun k => ?_
  rw [decodePayload_getElem?, decodePayload_getElem?]
  split
  case isTrue hk => rw [h k hk]
  case isFalse => rfl

/-- Settles O30: the index of each bit's space is inside the payload. -/
theorem decodedLengthAndBits : Obligations.DecodedLengthAndBits := by
  refine fun P => ⟨decodePayload_length P, fun k hk => ?_⟩
  rw [decodePayload_length] at hk
  have hspace : 2 * k + 1 < P.length := by omega
  have hroom : k < 40 := by omega
  refine ⟨P[2 * k + 1], List.getElem?_eq_getElem hspace, ?_⟩
  rw [decodePayload_getElem?, if_pos hroom, List.getElem?_eq_getElem hspace]
  rfl

/-- Settles O31: the walk reads no even index. -/
theorem marksNeverAffectTheResult : Obligations.MarksNeverAffectTheResult :=
  fun _ _ _ hodd => decodePayload_congr fun k _ => hodd (2 * k + 1) (by omega)

/-- Settles O32: the result has length 0. -/
theorem shortPayloadDecodesToNothing : Obligations.ShortPayloadDecodesToNothing := by
  intro P hshort
  apply List.eq_nil_of_length_eq_zero
  rw [decodePayload_length]
  omega

/-- Settles O33: the walk reads no index from 80 on. -/
theorem decodeStopsAtFortyBits : Obligations.DecodeStopsAtFortyBits := by
  intro P Q
  rw [decodePayload_length]
  refine ⟨Nat.min_le_right _ _, fun hlen => ⟨?_, by omega⟩⟩
  exact decodePayload_congr fun k hk => List.getElem?_append_left (by omega)

/-- Settles O34: the one bit of a pair is that of its space. -/
theorem thresholdIsStrict : Obligations.ThresholdIsStrict := by
  intro m s
  have hpair : decodePayload [m, s] = [spaceBit s] := (decodeWalk_pair 39 m s []).trans (by rw [decodeWalk_nil])
  rw [hpair]
  exact ⟨fun hs => by simp [spaceBit, hs], fun hs => by simp [spaceBit, Nat.lt_of_succ_le hs]⟩

/-- Settles O35: the added element has even index. -/
theorem trailingMarkIsIgnored : Obligations.TrailingMarkIsIgnored := by
  refine fun P m heven => decodePayload_congr fun k _ => ?_
  by_cases hin : 2 * k + 1 < P.length
  · exact List.getElem?_append_left hin
  · have hout : (P ++ [m]).length ≤ 2 * k + 1 := by rw [List.length_append, List.length_singleton]; omega
    rw [List.getElem?_eq_none hout, List.getElem?_eq_none (Nat.le_of_not_lt hin)]

end Sys2Proof.Machine
end

section
/-! PROOFS. Each command by itself: NOP, CLEAR and PUSH (spec/40_pdm_decoder.md R77 to R79). -/

namespace Sys2Proof.Machine

/-- R53: a word with `op = 10`. -/
theorem decode_pushWord {w d : Nat} (h : d < 2 ^ w) : decode w (2 * 2 ^ w + d) = .ok (.push d) :=
  decode_commandWord w 0b10#2 d h

/-- R101: `len_o` counts with `LEN`. -/
theorem lenO_of_len_succ {r r' : RegFile} (h : r'.len.val = r.len.val + 1) : r'.lenO = r.lenO + 1#6 := by
  apply BitVec.eq_of_toNat_eq
  rw [BitVec.toNat_add, lenO_toNat, lenO_toNat, h]
  exact (Nat.mod_eq_of_lt (show r.len.val + 1 < 64 by omega)).symm

/-- Settles O14: the meaning of NOP and the words with `op = 00`. -/
theorem nopWritesNothing : Obligations.NopWritesNothing := ⟨exec_nop, fun _ _ => decode_nopWord⟩

/-- Settles O15: the meaning of CLEAR, the words with `op = 01`, and the outputs at `LEN = 0`. -/
theorem clearWritesAllRegisters : Obligations.ClearWritesAllRegisters :=
  ⟨exec_clear, fun _ _ => decode_clearWord, rfl, rfl⟩

/-- Settles O16: PUSH in `Ready` is `pushElement`, by its law for each phase and for the room left. -/
theorem pushPresentsTheNextElement : Obligations.PushPresentsTheNextElement := by
  refine ⟨fun _ _ => decode_pushWord, exec_push_uninit, fun d s r hr => ?_⟩
  rw [exec_push_ready d s r hr]
  refine ⟨fun hmark => by rw [pushElement_of_mark r d hmark], fun hspace hroom => ?_, fun hspace hfull => ?_⟩
  · have hlen : (r.pushElement d).len.val = r.len.val + 1 := by rw [pushElement_len, if_pos ⟨hspace, hroom⟩]
    have hphase : (r.pushElement d).phase = .mark := by rw [pushElement_phase, hspace, flip_space]
    refine ⟨r.pushElement d, rfl, hphase, hlen, lenO_of_len_succ hlen, ?_, fun k _ => ?_⟩
    · rw [fullO_eq_one_iff, hlen]
      omega
    · simp [pushElement_getLsbD, hspace, hroom, spaceBit]
  · rw [pushElement_of_full r d hfull, hspace, flip_space]

end Sys2Proof.Machine
end

section
/-! PROOFS. Sequences of commands (spec/20_memory.md R45, spec/40_pdm_decoder.md R80 to R82): a command sees the registers only, a NOP
may be left out, and a list of PUSHes is a fold of `pushElement`. -/

namespace Sys2Proof.Machine

/-- R77, R78, R79: what a command does is decided by the registers, and it leaves the rest of the state it runs in. -/
theorem exec_of_regs_eq {i : Instr} {s s' t : State} (h : exec i s = .next t) (hregs : s'.regs = s.regs) :
    exec i s' = .next { s' with regs := t.regs } := by
  obtain ⟨_, rfl, hx⟩ | ⟨_, rfl, hx⟩ | ⟨d, r, rfl, hr, hx⟩ | ⟨_, -, -, hx⟩ | ⟨_, -, hx⟩ := exec_cases i s <;>
    rw [hx] at h <;> cases h
  · rw [exec_nop, ← hregs]
  · rfl
  · rw [exec_push_ready d s' r (hregs.trans hr)]

/-- A sequence that runs to its end does so command by command. -/
theorem runCommands_cons_eq_next_iff (i : Instr) (is : List Instr) (s t : State) :
    runCommands (i :: is) s = .next t ↔ ∃ u, exec i s = .next u ∧ runCommands is u = .next t := by
  cases hx : exec i s with
  | next u => simp [runCommands_of_next i is s u hx]
  | fault f => simp [runCommands_of_fault i is s f hx]
  | refused x => simp [runCommands_of_refused i is s x hx]

/-- R82: what a sequence does is decided by the registers it begins with. -/
theorem runCommands_of_regs_eq {is : List Instr} {s s' t : State} (h : runCommands is s = .next t)
    (hregs : s'.regs = s.regs) : runCommands is s' = .next { s' with regs := t.regs } := by
  induction is generalizing s s' with
  | nil =>
    rw [runCommands_nil] at h; cases h
    rw [runCommands_nil, ← hregs]
  | cons i is ih =>
    obtain ⟨u, hx, hrest⟩ := (runCommands_cons_eq_next_iff i is s t).1 h
    rw [runCommands_of_next i is s' _ (exec_of_regs_eq hx hregs)]
    exact ih hrest rfl

/-- A sequence goes on from where its first part ends. -/
theorem runCommands_append {is : List Instr} {s t : State} (js : List Instr) (h : runCommands is s = .next t) :
    runCommands (is ++ js) s = runCommands js t := by
  induction is generalizing s with
  | nil => rw [runCommands_nil] at h; cases h; rfl
  | cons i is ih =>
    obtain ⟨u, hx, hrest⟩ := (runCommands_cons_eq_next_iff i is s t).1 h
    rw [List.cons_append, runCommands_of_next i _ s u hx, ih hrest]

/-- R77: NOPs may be left out of a sequence. -/
theorem runCommands_filter_isNop (is : List Instr) (s : State) :
    runCommands (is.filter (fun i => !i.isNop)) s = runCommands is s := by
  induction is generalizing s with
  | nil => rfl
  | cons i is ih =>
    cases hnop : i.isNop with
    | true =>
      have hx : exec i s = .next s := by
        cases i with
        | nop d => exact exec_nop d s
        | clear d => cases hnop
        | push d => cases hnop
        | reserved d => cases hnop
      rw [List.filter_cons_of_neg (by simp [hnop]), ih, runCommands_of_next i is s s hx]
    | false =>
      rw [List.filter_cons_of_pos (by simp [hnop])]
      simp only [runCommands, ih]

/-- R79: PUSHes in `Ready` present their elements one after the other. -/
theorem runCommands_pushes (P : List Nat) (s : State) (r : RegFile) (hr : s.regs = .ready r) :
    runCommands (P.map .push) s = .next { s with regs := .ready (P.foldl RegFile.pushElement r) } := by
  induction P generalizing s r with
  | nil => rw [List.foldl_nil, ← hr]; rfl
  | cons d P ih =>
    rw [List.map_cons, runCommands_of_next _ _ s _ (exec_push_ready d s r hr), ih _ (r.pushElement d) rfl, List.foldl_cons]

/-- R78, R80: CLEAR and PUSHes present their elements from the reset values, in every state. -/
theorem runCommands_clear_pushes (c : Nat) (P : List Nat) (s : State) :
    runCommands (.clear c :: P.map .push) s =
      .next { s with regs := .ready (P.foldl RegFile.pushElement RegFile.resetValues) } := by
  rw [runCommands_of_next _ _ s _ (exec_clear c s)]
  exact runCommands_pushes P s.writeResetValues RegFile.resetValues rfl

/-- In `Uninit` a sequence without CLEAR changes nothing before it stops (R130). -/
theorem runCommands_uninit (is : List Instr) (s : State) (hu : s.regs = .uninit) (hclear : ∀ i ∈ is, ∀ d, i ≠ .clear d) :
    runCommands is s = .next s ∨ runCommands is s = .fault .pushBeforeInit ∨ runCommands is s = .refused .reservedOp := by
  induction is with
  | nil => exact .inl rfl
  | cons i is ih =>
    obtain ⟨hi, hrest⟩ := List.forall_mem_cons.1 hclear
    cases i with
    | nop d => rw [runCommands_of_next _ is s s (exec_nop d s)]; exact ih hrest
    | clear d => exact absurd rfl (hi d)
    | push d => exact .inr (.inl (runCommands_of_fault _ is s _ (exec_push_uninit d s hu)))
    | reserved d => exact .inr (.inr (runCommands_of_refused _ is s _ (exec_reserved d s)))

/-- Settles O26: after CLEAR the registers are the reset values, whatever they were. -/
theorem commandSequenceDeterminesTheRegisters : Obligations.CommandSequenceDeterminesTheRegisters := by
  refine ⟨fun is d s s' t h => ?_, runCommands_uninit⟩
  rw [runCommands_of_next _ is s _ (exec_clear d s)] at h
  rw [runCommands_of_next _ is s' _ (exec_clear d s')]
  exact ⟨_, runCommands_of_regs_eq h rfl, rfl⟩

end Sys2Proof.Machine
end

section
/-! PROOFS. PUSHes one after the other: the phase they leave, and a full vector (spec/40_pdm_decoder.md R79, R81). -/

namespace Sys2Proof.Machine

/-- R79: two PUSHes give the phase back. -/
theorem flip_involutive : Function.Involutive Phase.flip := fun p => by cases p <;> rfl

/-- R24: only the parity of the number of PUSHes shows in the phase. -/
theorem flip_iterate (n : Nat) (p : Phase) : Phase.flip^[n] p = if n % 2 = 0 then p else p.flip := by
  split
  case isTrue heven => rw [flip_involutive.iterate_even (Nat.even_iff.2 heven), id]
  case isFalse hodd => rw [flip_involutive.iterate_odd (Nat.odd_iff.2 (Nat.mod_two_ne_zero.1 hodd))]

/-- R79: PUSH never keeps the phase. -/
theorem flip_ne_self (p : Phase) : p.flip ≠ p := by cases p <;> decide

/-- R80: the phase after the elements `P`. -/
theorem foldl_pushElement_phase (P : List Nat) (r : RegFile) :
    (P.foldl RegFile.pushElement r).phase = Phase.flip^[P.length] r.phase := by
  induction P generalizing r with
  | nil => rfl
  | cons d P ih => rw [List.foldl_cons, ih, pushElement_phase, List.length_cons, Function.iterate_succ_apply]

/-- R81: at `LEN = 40` PUSHes change only the phase. -/
theorem foldl_pushElement_of_full (P : List Nat) (r : RegFile) (h : r.len.val = 40) :
    P.foldl RegFile.pushElement r = { r with phase := Phase.flip^[P.length] r.phase } := by
  induction P generalizing r with
  | nil => rfl
  | cons d P ih => rw [List.foldl_cons, pushElement_of_full r d h]; exact ih _ h

/-- A list of NOPs and PUSHes is, without its NOPs, a list of PUSHes. -/
theorem exists_filter_isNop_eq_map_push (is : List Instr) (h : ∀ i ∈ is, (∃ d, i = .nop d) ∨ ∃ d, i = .push d) :
    ∃ P : List Nat, is.filter (fun i => !i.isNop) = P.map .push := by
  induction is with
  | nil => exact ⟨[], rfl⟩
  | cons i is ih =>
    obtain ⟨hi, hrest⟩ := List.forall_mem_cons.1 h
    obtain ⟨P, hP⟩ := ih hrest
    obtain ⟨d, rfl⟩ | ⟨d, rfl⟩ := hi
    · exact ⟨P, hP⟩
    · exact ⟨d :: P, congrArg (Instr.push d :: ·) hP⟩

/-- Settles O24: without its NOPs the list is a list of PUSHes, each of which only flips the phase of a full vector. -/
theorem fullVectorIsKeptUntilClearOrReset : Obligations.FullVectorIsKeptUntilClearOrReset := by
  intro is s r hr hfull hcommands
  obtain ⟨P, hP⟩ := exists_filter_isNop_eq_map_push is hcommands
  have hrun : runCommands is s = .next { s with regs := .ready { r with phase := Phase.flip^[P.length] r.phase } } := by
    rw [← runCommands_filter_isNop, hP, runCommands_pushes P s r hr, foldl_pushElement_of_full P r hfull]
  refine ⟨(fullO_eq_one_iff r).2 hfull, ⟨_, hrun, ?_, output_of_phase r _⟩, fun d => ?_, fun _ _ _ => step_resetEdge rfl⟩
  · rw [hP, List.length_map, flip_iterate]
    split
    case isTrue heven => exact iff_of_true rfl heven
    case isFalse hodd => exact iff_of_false (flip_ne_self r.phase) hodd
  · rw [runCommands_append [.clear d] hrun]; rfl

end Sys2Proof.Machine
end

section
/-! PROOFS. Streaming equivalence (spec/40_pdm_decoder.md R80): one step per command word, and the BitVector in `BITS` grows as the
walk of `decode` does. -/

namespace Sys2Proof.Machine

/-- R25, R80: words of commands that run to their end do so in one step each. -/
theorem run_commandWords {s : State} {regs : Regs} {cws : List Nat} {is : List Instr} {rest : List HostEvent}
    (hwords : commandsOf s.config.durW cws = some is) (hin : s.inputs = cws.map (HostEvent.edge false) ++ rest)
    (hrun : runCommands is s = .next { s with regs := regs }) :
    Host.Core.run Sys2Proof.core cws.length s = .next { s with regs := regs, inputs := rest } := by
  induction cws generalizing s is with
  | nil =>
    rw [commandsOf_nil] at hwords; cases hwords
    obtain rfl : s.inputs = rest := hin
    exact hrun
  | cons cw cws ih =>
    obtain ⟨i, is, hd, hrest, rfl⟩ := (commandsOf_cons_eq_some _ cw cws _).1 hwords
    obtain ⟨u, hx, hrun⟩ := (runCommands_cons_eq_next_iff i is s _).1 hrun
    have hstep : step s = .next { s with regs := u.regs, inputs := cws.map (HostEvent.edge false) ++ rest } := by
      rw [step_commandEdge hin hd]
      exact exec_of_regs_eq hx rfl
    rw [List.length_cons, run_succ_next _ s _ hstep]
    exact ih hrest rfl (runCommands_of_regs_eq hrun rfl)

@[simp] theorem vector_length (r : RegFile) : r.vector.length = r.len.val := by simp [RegFile.vector]

/-- R79: a space with room appends its bit to the BitVector in `BITS`; every other PUSH keeps it. -/
theorem pushElement_vector (r : RegFile) (d : Nat) :
    (r.pushElement d).vector = r.vector ++ if r.phase = .space ∧ r.len.val < 40 then [spaceBit d] else [] := by
  have hkept : (List.range r.len.val).map (r.pushElement d).bits.getLsbD = r.vector :=
    List.map_congr_left fun k hk => pushElement_getLsbD_of_ne r d (Nat.ne_of_lt (List.mem_range.1 hk))
  rw [RegFile.vector, pushElement_len]
  split
  case isTrue hgrows =>
    rw [List.range_succ, List.map_append, hkept, List.map_singleton, pushElement_getLsbD, if_pos ⟨hgrows.1, hgrows.2, rfl⟩]
  case isFalse => rw [Nat.add_zero, hkept, List.append_nil]

/-- R70, R79: from a mark on, PUSHes append what the walk of `decode` gives for the room left. -/
theorem foldl_pushElement_vector (P : List Nat) (r : RegFile) (hmark : r.phase = .mark) :
    (P.foldl RegFile.pushElement r).vector = r.vector ++ decodeWalk (40 - r.len.val) P := by
  match P with
  | [] => simp
  | [m] => simp [pushElement_vector, hmark]
  | m :: d :: P =>
    have hnext : ((r.pushElement m).pushElement d).phase = .mark := by simp [hmark]
    have hlen : ((r.pushElement m).pushElement d).len.val = r.len.val + if r.len.val < 40 then 1 else 0 := by
      simp [pushElement_len, hmark]
    have hvector : ((r.pushElement m).pushElement d).vector = r.vector ++ if r.len.val < 40 then [spaceBit d] else [] := by
      simp [pushElement_vector, pushElement_len, hmark]
    rw [List.foldl_cons, List.foldl_cons, foldl_pushElement_vector P _ hnext, hvector, hlen]
    by_cases hroom : r.len.val < 40
    · obtain ⟨room, hleft⟩ : ∃ room, 40 - r.len.val = room + 1 := ⟨39 - r.len.val, by omega⟩
      have hleft' : 40 - (r.len.val + 1) = room := by omega
      rw [if_pos hroom, if_pos hroom, hleft', hleft, decodeWalk_pair, List.append_assoc, List.singleton_append]
    · rw [if_neg hroom, if_neg hroom, Nat.add_zero, Nat.sub_eq_zero_of_le (Nat.le_of_not_lt hroom), decodeWalk_zero,
        decodeWalk_zero, List.append_nil]

/-- R22 is kept by PUSHes. -/
theorem foldl_pushElement_zeroAboveLen (P : List Nat) (r : RegFile) (h : r.zeroAboveLen) :
    (P.foldl RegFile.pushElement r).zeroAboveLen := by
  induction P generalizing r with
  | nil => exact h
  | cons d P ih => exact ih _ (pushElement_zeroAboveLen r d h)

/-- R80: the elements of `P` presented after CLEAR leave `decode(P)` in the first `LEN` bits of `BITS`. -/
theorem pushed_vector (P : List Nat) :
    (P.foldl RegFile.pushElement RegFile.resetValues).vector = decodePayload P :=
  foldl_pushElement_vector P RegFile.resetValues rfl

/-- R80: `LEN` after a frame. -/
theorem pushed_len (P : List Nat) :
    (P.foldl RegFile.pushElement RegFile.resetValues).len.val = (decodePayload P).length := by
  rw [← pushed_vector, vector_length]

/-- R80: `BITS` after a frame. -/
theorem pushed_bits (P : List Nat) :
    (P.foldl RegFile.pushElement RegFile.resetValues).bits = pack (decodePayload P) := by
  rw [← pushed_vector]
  exact bits_eq_pack_vector _ (foldl_pushElement_zeroAboveLen P _ resetValues_zeroAboveLen)

/-- R80: `PHASE` after a frame. -/
theorem pushed_phase (P : List Nat) :
    (P.foldl RegFile.pushElement RegFile.resetValues).phase = if P.length % 2 = 0 then .mark else .space := by
  rw [foldl_pushElement_phase, flip_iterate]; rfl

/-- Settles O47: the words run as their commands do, and without the NOPs these are CLEAR and the PUSHes of the payload. -/
theorem streamedFrameComputesDecodeAndPack : Obligations.StreamedFrameComputesDecodeAndPack := by
  rintro s P cws rest ⟨is, c, hwords, hframe⟩ hin
  have hrun := runCommands_clear_pushes c P s
  rw [← hframe, runCommands_filter_isNop] at hrun
  exact ⟨_, run_commandWords hwords hin hrun, pushed_len P, pushed_bits P, pushed_phase P⟩

end Sys2Proof.Machine
end

section
/-! PROOFS. The Code (spec/41_code_packer.md R90 to R93): `pack` as a sum, and bit by bit. -/

namespace Sys2Proof.Machine

/-- R90: the packed value as the sum over the positions of the vector. -/
theorem packValue_eq_sum (B : List Bool) :
    packValue B = ((List.range B.length).map (fun k => (B.getD k false).toNat * 2 ^ k)).sum := by
  induction B with
  | nil => rfl
  | cons b B ih =>
    have hshifted : (fun k => ((b :: B).getD k false).toNat * 2 ^ k) ∘ Nat.succ =
        fun k => 2 * ((B.getD k false).toNat * 2 ^ k) := funext fun k => by
      rw [Function.comp_apply, List.getD_cons_succ, Nat.pow_succ', Nat.mul_left_comm]
    rw [packValue_cons, ih, List.length_cons, List.range_succ_eq_map, List.map_cons, List.sum_cons, List.map_map, hshifted,
      List.sum_map_mul_left, List.getD_cons_zero, Nat.pow_zero, Nat.mul_one]

/-- R90: a vector of at most 40 bits packs below `2^40`. -/
theorem packValue_lt_two_pow_forty {B : List Bool} (h : B.length ≤ 40) : packValue B < 2 ^ 40 :=
  (packValue_lt B).trans_le (Nat.pow_le_pow_right Nat.two_pos h)

/-- R90: so the Code holds the packed value unchanged. -/
theorem toNat_pack {B : List Bool} (h : B.length ≤ 40) : (pack B).toNat = packValue B := by
  rw [pack, BitVec.toNat_ofNat]
  exact Nat.mod_eq_of_lt (packValue_lt_two_pow_forty h)

/-- Settles O36: the sum is the packed value. -/
theorem packIsTheSumOfBitValues : Obligations.PackIsTheSumOfBitValues := by
  intro B hlen
  rw [← packValue_eq_sum]
  exact ⟨toNat_pack hlen, packValue_lt_two_pow_forty hlen⟩

/-- Settles O37: the value is the first bit and an even rest. -/
theorem firstBitDecidesParity : Obligations.FirstBitDecidesParity := by
  intro b B hlen
  refine ⟨getLsbD_pack (b :: B) 0 (by decide), ?_⟩
  rw [toNat_pack (by rwa [List.length_cons, Nat.succ_le_iff]), packValue_cons, Nat.add_mul_mod_self_left]
  cases b <;> decide

/-- Settles O38: the Code bit by bit, which reads 0 past the vector's end. -/
theorem shortVectorIsZeroPadded : Obligations.ShortVectorIsZeroPadded := by
  refine ⟨rfl, fun B _ k hk => ?_⟩
  rw [getLsbD_pack B k hk]
  split
  case isTrue => rfl
  case isFalse hpast => exact List.getD_eq_default B false (Nat.le_of_not_lt hpast)

/-- R92: past its end a vector reads as zeros, so zeros added there are read alike. -/
theorem getD_append_replicate_false (B : List Bool) (n k : Nat) :
    (B ++ List.replicate n false).getD k false = B.getD k false := by
  by_cases hin : k < B.length
  · exact List.getD_append B _ false k hin
  · have hpast : B.length ≤ k := Nat.le_of_not_lt hin
    rw [List.getD_append_right B _ false k hpast, List.getD_eq_default B false hpast,
      List.getD_eq_getElem?_getD, List.getElem?_getD_replicate_default_eq]

/-- R93: trailing zeros keep the Code. -/
theorem pack_append_replicate_false (B : List Bool) (n : Nat) : pack (B ++ List.replicate n false) = pack B := by
  refine BitVec.eq_of_getLsbD_eq fun k hk => ?_
  rw [getLsbD_pack _ k hk, getLsbD_pack B k hk, getD_append_replicate_false]

/-- Settles O39: the string is a function of the Code. -/
theorem trailingZerosKeepTheCode : Obligations.TrailingZerosKeepTheCode :=
  fun B n _ => ⟨pack_append_replicate_false B n, congrArg hex (pack_append_replicate_false B n)⟩

end Sys2Proof.Machine
end

section
/-! PROOFS. The string of a Code (spec/41_code_packer.md R95 to R98), digit by digit. -/

namespace Sys2Proof.Machine

/-- R95: the value of digit `j`, by arithmetic on the Code. -/
theorem nibble_toNat (c : Code) (j : Nat) : (nibble c j).toNat = c.toNat / 2 ^ (36 - 4 * j) % 16 := by
  rw [nibble, BitVec.extractLsb'_toNat, Nat.shiftRight_eq_div_pow]

/-- R96: a digit's character is its value's place among the 16 upper-case digits. -/
theorem alphabet_getElem?_eq_digit (n : Nibble) : "0123456789ABCDEF".toList[n.toNat]? = some (digit n) := by
  revert n; decide

/-- Settles O40: character `2 + j` is digit `j`. -/
theorem renderingIsTenUpperCaseDigits : Obligations.RenderingIsTenUpperCaseDigits := by
  refine fun c => ⟨hex_length c, rfl, fun j hj => ?_⟩
  rw [hex_getElem? c j hj, ← nibble_toNat, alphabet_getElem?_eq_digit]

/-- R96: the 16 digits differ. -/
theorem digit_injective : Function.Injective digit := by
  unfold Function.Injective; decide

/-- R95: bit `k` of a Code is bit `k mod 4` of digit `9 - k / 4`. -/
theorem getLsbD_eq_nibble (c : Code) (k : Nat) (hk : k < 40) : c.getLsbD k = (nibble c (9 - k / 4)).getLsbD (k % 4) := by
  have hin : k % 4 < 4 := Nat.mod_lt k (by decide)
  have hplace : 36 - 4 * (9 - k / 4) + k % 4 = k := by omega
  rw [nibble, BitVec.getLsbD_extractLsb', hplace, decide_eq_true hin, Bool.true_and]

/-- R98: the digits of a string are read back from it, and every bit of the Code from its digit. -/
theorem hex_injective : Function.Injective hex := by
  intro c c' h
  have hnibbles (j : Nat) (hj : j < 10) : nibble c j = nibble c' j := by
    apply digit_injective
    rw [← Option.some_inj, ← hex_getElem? c j hj, ← hex_getElem? c' j hj, h]
  refine BitVec.eq_of_getLsbD_eq fun k hk => ?_
  rw [getLsbD_eq_nibble c k hk, getLsbD_eq_nibble c' k hk, hnibbles _ (by omega)]

/-- Settles O41: injectivity, the string's length, and two strings evaluated. -/
theorem renderingIsInjective : Obligations.RenderingIsInjective :=
  ⟨fun _ _ => hex_injective.eq_iff, fun c => by rw [List.length_drop, hex_length], by decide, by decide⟩

/-- Settles O43: the bus of each of the three Codes, evaluated. -/
theorem hexBusWorkedExamples : Obligations.HexBusWorkedExamples := by
  unfold Obligations.HexBusWorkedExamples
  decide

end Sys2Proof.Machine
end

section
/-! PROOFS. A frame's result as the host reads it (spec/41_code_packer.md R94 to R103, spec/70_reset_and_hazards.md R140, R142). -/

namespace Sys2Proof.Machine

/-- R31: readings one after the other see the same registers. -/
theorem run_observes {s : State} {r : RegFile} {ports : List OutPort} {rest : List HostEvent} (hr : s.regs = .ready r)
    (hin : s.inputs = ports.map .observe ++ rest) :
    Host.Core.run Sys2Proof.core ports.length s =
      .next { s with inputs := rest, observed := s.observed ++ ports.map r.output } := by
  induction ports generalizing s with
  | nil =>
    obtain rfl : s.inputs = rest := hin
    rw [List.map_nil, List.append_nil]; rfl
  | cons p ports ih =>
    rw [List.map_cons, List.append_cons, List.length_cons, run_succ_next _ s _ (step_observe hin hr)]
    exact ih (s := { s with inputs := _, observed := _ }) hr rfl

/-- R53: the words of PUSHes that fit the port are read as these PUSHes. -/
theorem commandsOf_pushWords {w : Nat} {P : List Nat} (h : ∀ d ∈ P, d < 2 ^ w) :
    commandsOf w (P.map (2 * 2 ^ w + ·)) = some (P.map .push) := by
  induction P with
  | nil => rfl
  | cons d P ih =>
    obtain ⟨hd, hP⟩ := List.forall_mem_cons.1 h
    exact (commandsOf_cons_eq_some _ _ _ _).2 ⟨_, _, decode_pushWord hd, ih hP, rfl⟩

/-- R80, R140: the words of CLEAR and of the PUSHes of a payload present its frame, with no NOP among them. -/
theorem presentsFrame_clear_pushWords {w : Nat} {P : List Nat} (h : ∀ d ∈ P, d < 2 ^ w) :
    presentsFrame w P (1 * 2 ^ w :: P.map (2 * 2 ^ w + ·)) := by
  refine ⟨.clear 0 :: P.map .push, 0, ?_, ?_⟩
  · exact (commandsOf_cons_eq_some _ _ _ _).2
      ⟨_, _, decode_clearWord (Nat.two_pow_pos w), commandsOf_pushWords h, rfl⟩
  · exact List.filter_eq_self.2 (List.forall_mem_cons.2 ⟨rfl, List.forall_mem_map.2 fun _ _ => rfl⟩)

/-- R94, R99, R101, R102: what the four ports show of registers that hold the result of a vector. -/
theorem output_of_packed {r : RegFile} {B : List Bool} (hlen : r.len.val = B.length) (hbits : r.bits = pack B) :
    [OutPort.len, .code, .hex, .full].map r.output =
      [.len (BitVec.ofNat 6 B.length), .code (pack B), .hex (hexBus (pack B)),
       .full (if B.length = 40 then 1#1 else 0#1)] := by
  have hfull : r.fullO = if B.length = 40 then 1#1 else 0#1 := by
    by_cases hfortyBits : B.length = 40 <;> simp [RegFile.fullO, hlen, hfortyBits]
  simp [RegFile.output, RegFile.lenO, RegFile.codeO, RegFile.hexO, hlen, hbits, hfull]

/-- Settles O48: the frame's words by streaming equivalence (O47), then the four readings. -/
theorem hostReadsTheDecodedFrame : Obligations.HostReadsTheDecodedFrame := by
  intro s P rest hfits hin
  obtain ⟨r, hrun, hlen, hbits, -⟩ := streamedFrameComputesDecodeAndPack s P _
    ([OutPort.len, .code, .hex, .full].map .observe ++ rest) (presentsFrame_clear_pushWords hfits)
    (by rw [hin, List.map_cons, List.map_map]; rfl)
  rw [List.length_cons, List.length_map] at hrun
  have hread := run_observes (s := { s with regs := .ready r, inputs := _ }) (ports := [.len, .code, .hex, .full])
    (rest := rest) rfl rfl
  exact ⟨_, (run_add _ 4 s _ hrun).trans hread, rfl, rfl, congrArg (s.observed ++ ·) (output_of_packed hlen hbits)⟩

/-- Settles O49: the payload decodes to nothing, and the outputs show the empty vector's result. -/
theorem emptyResultAfterShortFrame : Obligations.EmptyResultAfterShortFrame := by
  intro s P hshort
  have hempty : decodePayload P = [] := shortPayloadDecodesToNothing P hshort
  have hlen := pushed_len P
  have hbits := pushed_bits P
  rw [hempty] at hlen hbits
  refine ⟨_, runCommands_clear_pushes 0 P s, ?_, hbits, ?_⟩
  · rw [RegFile.lenO, hlen]; rfl
  · rw [RegFile.hexO, hbits]; decide

end Sys2Proof.Machine
end

section
/-! PROOFS. The duration the host presents (spec/60_exceptions.md R114), and the commands that complete in `Ready` (R110, R118). -/

namespace Sys2Proof.Machine

/-- R114: a negative duration is presented as 0. -/
theorem presentDuration_of_neg (w : Nat) {d : Int} (h : d < 0) : presentDuration w d = 0 := if_pos h

/-- R114: any other duration is presented as itself, cut to the port's largest. -/
theorem presentDuration_of_nonneg (w : Nat) {d : Int} (h : 0 ≤ d) : presentDuration w d = min d.toNat (2 ^ w - 1) :=
  if_neg (Int.not_lt.2 h)

/-- R9, R114: a port of 10 bits or more has a largest duration above 850. -/
theorem threshold_lt_largestDuration {w : Nat} (h : 10 ≤ w) : 850 < 2 ^ w - 1 := by
  have hpow : 2 ^ 10 ≤ 2 ^ w := Nat.pow_le_pow_right Nat.two_pos h
  omega

/-- R74: the bit of a duration as a truth value. -/
theorem spaceBit_eq_decide_iff (n : Nat) (p : Prop) [Decidable p] : spaceBit n = decide p ↔ (850 < n ↔ p) := decide_eq_decide

/-- Settles O52: a negative duration and the 0 presented for it are both at most 850; one that is cut and the port's largest are
both above. -/
theorem presentedDurationKeepsTheBit : Obligations.PresentedDurationKeepsTheBit := by
  intro w d hw
  have hlargest : 850 < 2 ^ w - 1 := threshold_lt_largestDuration hw
  by_cases hneg : d < 0
  · rw [presentDuration_of_neg w hneg]
    refine ⟨Nat.two_pow_pos w, ?_, fun _ => rfl, fun hnonneg => absurd hneg (Int.not_lt.2 hnonneg)⟩
    rw [spaceBit_eq_decide_iff]
    omega
  · have hnonneg : 0 ≤ d := Int.not_lt.1 hneg
    rw [presentDuration_of_nonneg w hnonneg]
    refine ⟨by omega, ?_, fun h => absurd h hneg, fun _ => ?_⟩
    · rw [spaceBit_eq_decide_iff]
      omega
    · have hcast : ((2 ^ w - 1 : Nat) : Int) = 2 ^ w - 1 := by
        rw [Nat.cast_pred (Nat.two_pow_pos w), Nat.cast_pow, Nat.cast_ofNat]
      rw [Nat.cast_min, Int.toNat_of_nonneg hnonneg, hcast]

/-- Settles O19: NOP keeps the registers, CLEAR writes the reset values, PUSH one element. -/
theorem everyCommandCompletesWhenReady : Obligations.EveryCommandCompletesWhenReady := by
  intro i s r hr hmeaning
  cases i with
  | nop d => exact ⟨r, by rw [exec_nop, ← hr]⟩
  | clear d => exact ⟨RegFile.resetValues, exec_clear d s⟩
  | push d => exact ⟨r.pushElement d, exec_push_ready d s r hr⟩
  | reserved d => exact absurd rfl (hmeaning d)

end Sys2Proof.Machine
end

section
/-! PROOFS. Where the faults come from, and the record of the first stop (spec/60_exceptions.md R112, R113). -/

namespace Sys2Proof.Machine

/-- R79, R113: the only command that faults is PUSH in `Uninit`. -/
theorem exec_eq_fault_iff (i : Instr) (s : State) (f : Fault) :
    exec i s = .fault f ↔ s.regs = .uninit ∧ f = .pushBeforeInit ∧ ∃ d, i = .push d := by
  obtain ⟨d, rfl, hx⟩ | ⟨d, rfl, hx⟩ | ⟨d, _, rfl, hr, hx⟩ | ⟨d, rfl, hr, hx⟩ | ⟨d, rfl, hx⟩ := exec_cases i s
  · simp
  · simp
  · simp [hx, hr]
  · simp [hx, hr, eq_comm]
  · simp

/-- An edge with `rst = 0` faults for its command only. -/
theorem commandEdge_eq_fault_iff (cw : Nat) (s : State) (f : Fault) :
    commandEdge cw s = .fault f ↔
      s.regs = .uninit ∧ f = .pushBeforeInit ∧ ∃ d, decode s.config.durW cw = .ok (.push d) := by
  cases hd : decode s.config.durW cw with
  | ok i => simp [commandEdge_ok s cw i hd, exec_eq_fault_iff]
  | error e => simp [commandEdge_error s cw e hd]

/-- R104, R113: a reading faults in `Uninit` only. -/
theorem observeOutput_eq_fault_iff (p : OutPort) (s : State) (f : Fault) :
    observeOutput p s = .fault f ↔ s.regs = .uninit ∧ f = .readBeforeInit := by
  cases hr : s.regs with
  | uninit => simp [observeOutput_uninit p s hr, eq_comm]
  | ready r => simp [observeOutput_ready p s r hr]

/-- R113: the events that fault, PUSH and a reading, each in `Uninit`. -/
theorem hostEvent_eq_fault_iff (e : HostEvent) (s : State) (f : Fault) :
    hostEvent e s = .fault f ↔
      s.regs = .uninit ∧
        ((f = .pushBeforeInit ∧ ∃ cw d, e = .edge false cw ∧ decode s.config.durW cw = .ok (.push d)) ∨
         (f = .readBeforeInit ∧ ∃ p, e = .observe p)) := by
  match e with
  | .edge false cw => simp [hostEvent, commandEdge_eq_fault_iff]
  | .edge true cw => simp [hostEvent]
  | .observe p => simp [hostEvent, observeOutput_eq_fault_iff]
  | .powerLoss => simp [hostEvent]

/-- R113: the steps that fault. -/
theorem step_eq_fault_iff (s : State) (f : Fault) :
    step s = .fault f ↔
      s.regs = .uninit ∧
        ((f = .pushBeforeInit ∧ ∃ cw rest d, s.inputs = .edge false cw :: rest ∧ decode s.config.durW cw = .ok (.push d)) ∨
         (f = .readBeforeInit ∧ ∃ p rest, s.inputs = .observe p :: rest)) := by
  cases hin : s.inputs with
  | nil => simp [step_nil s hin]
  | cons e rest =>
    rw [step_cons s e rest hin, hostEvent_eq_fault_iff]
    simp

/-- R112, R113: a recorded stop stays, whatever the tick does, also where it stops again. -/
theorem tick_record_of_some {s : State} {x : Stop} (h : s.record = some x) : s.tick.record = some x := by
  cases hstep : step s with
  | next t => rw [tick_of_next s t hstep, step_record s t hstep, h]
  | fault f => rw [tick_of_fault s f hstep, stopWith_record, h, Option.some_or]
  | refused y => rw [tick_of_refused s y hstep, stopWith_record, h, Option.some_or]

/-- R112, R113: a recorded stop stays for the run. -/
theorem ticks_record_of_some {s : State} {x : Stop} (h : s.record = some x) (n : Nat) : (s.ticks n).record = some x := by
  induction n generalizing s with
  | zero => exact h
  | succ n ih => exact ih (tick_record_of_some h)

/-- R113: the first fault is recorded. -/
theorem tick_record_of_fault {s : State} {f : Fault} (hnone : s.record = none) (h : step s = .fault f) :
    s.tick.record = some (.fault f) := by
  rw [tick_of_fault s f h, stopWith_record, hnone, Option.none_or]

/-- R112: the first refusal is recorded. -/
theorem tick_record_of_refused {s : State} {x : Refusal} (hnone : s.record = none) (h : step s = .refused x) :
    s.tick.record = some (.refusal x) := by
  rw [tick_of_refused s x h, stopWith_record, hnone, Option.none_or]

/-- R113: a state with a recorded stop is no final state. -/
theorem isFinal_of_record {s : State} {x : Stop} (h : s.record = some x) : s.isFinal = false := by
  rw [State.isFinal, h, Option.isNone_some, Bool.and_false]

/-- Settles O53: the steps that fault, then the record from the next tick on. -/
theorem faultsComeOnlyFromUninitAndAreKept : Obligations.FaultsComeOnlyFromUninitAndAreKept := by
  refine ⟨step_eq_fault_iff, fun s f hnone hfault n => ?_⟩
  have hrecord : (s.ticks (n + 1)).record = some (.fault f) := ticks_record_of_some (tick_record_of_fault hnone hfault) n
  exact ⟨hrecord, isFinal_of_record hrecord⟩

/-- Settles O54: the word is the reserved command's; a record is made by the first stop and then stays. -/
theorem reservedCycleIsRefusedForTheRun : Obligations.ReservedCycleIsRefusedForTheRun := by
  intro s d rest hd hin
  have hrefused : step s = .refused .reservedOp := by rw [step_commandEdge hin (decode_reservedWord hd), exec_reserved]
  exact ⟨hrefused, fun hnone => ticks_record_of_some (tick_record_of_refused hnone hrefused),
    fun _ n hsome => ticks_record_of_some hsome n⟩

end Sys2Proof.Machine
end

section
/-! PROOFS. Reset, and the block before it (spec/70_reset_and_hazards.md R130 to R133, R135). -/

namespace Sys2Proof.Machine

/-- R132: the first of the edges writes the reset values, and every later one writes them again. -/
theorem run_resetEdges {s : State} {cw : Nat} {cws : List Nat} {rest : List HostEvent}
    (hin : s.inputs = (cw :: cws).map (HostEvent.edge true) ++ rest) :
    Host.Core.run Sys2Proof.core (cws.length + 1) s =
      .next { s with regs := .ready RegFile.resetValues, inputs := rest } := by
  induction cws generalizing s cw with
  | nil => exact run_succ_next 0 s _ (step_resetEdge hin)
  | cons cw' cws ih =>
    rw [List.length_cons, run_succ_next _ s _ (step_resetEdge hin)]
    exact ih (s := { s with regs := _, inputs := _ }) rfl

/-- R45, R135: a port read before and after an event that only writes the registers shows the old ones and then the new. -/
theorem run_observe_event_observe {s : State} {r r' : RegFile} {e : HostEvent} {p : OutPort} {rest : List HostEvent}
    (hr : s.regs = .ready r) (hin : s.inputs = .observe p :: e :: .observe p :: rest)
    (hevent : ∀ u : State, u.config = s.config → u.regs = s.regs → hostEvent e u = .next { u with regs := .ready r' }) :
    Host.Core.run Sys2Proof.core 3 s =
      .next { s with regs := .ready r', inputs := rest, observed := s.observed ++ [r.output p, r'.output p] } := by
  have hstep : step { s with inputs := e :: .observe p :: rest, observed := s.observed ++ [r.output p] } =
      .next { s with regs := .ready r', inputs := .observe p :: rest, observed := s.observed ++ [r.output p] } :=
    (step_cons _ e _ rfl).trans (hevent _ rfl rfl)
  rw [run_succ_next 2 s _ (step_observe hin hr), run_succ_next 1 _ _ hstep, run_succ_next 0 _ _ (step_observe rfl rfl),
    List.append_assoc]
  rfl

/-- Settles O8: the step at an edge with either value of `rst`; no tick clears a recorded stop. -/
theorem resetEdgeWritesResetValues : Obligations.ResetEdgeWritesResetValues :=
  ⟨fun _ _ _ hin => step_resetEdge hin, stepRunsTheDecodedCommand, fun _ _ _ _ _ hsome => tick_record_of_some hsome⟩

/-- Settles O9: by induction on the edges; and a reset edge is an event that writes the registers between the two readings. -/
theorem resetHeldHighKeepsResetValues : Obligations.ResetHeldHighKeepsResetValues :=
  ⟨fun _ _ _ _ hin => run_resetEdges hin,
    fun _ _ _ _ _ hr hin => run_observe_event_observe hr hin fun _ _ _ => rfl⟩

/-- Settles O11: both write the reset values. -/
theorem resetAndClearGiveTheSameState : Obligations.ResetAndClearGiveTheSameState :=
  fun _ _ d _ hin => ⟨_, step_resetEdge hin, exec_clear d _⟩

/-- Settles O12: each command and event by its own rule for `Uninit`. -/
theorem uninitialisedBlock : Obligations.UninitialisedBlock :=
  ⟨rfl, fun s hu =>
    ⟨fun d => exec_nop d s, fun d => exec_clear d s, fun d => exec_push_uninit d s hu, fun _ _ hin => step_resetEdge hin,
      fun p rest hin => (step_eq_fault_iff s _).2 ⟨hu, .inr ⟨rfl, p, rest, hin⟩⟩⟩⟩

/-- Settles O46: the command does to the registers after the first reading what it does to them before it. -/
theorem outputsLagTheCommandByOneCycle : Obligations.OutputsLagTheCommandByOneCycle := by
  intro s r r' i cw p rest hr hin hd hx
  refine run_observe_event_observe hr hin fun u hconfig hregs => ?_
  have hdu : decode u.config.durW cw = .ok i := by rw [hconfig, hd]
  exact (commandEdge_ok u cw i hdu).trans (exec_of_regs_eq hx hregs)

end Sys2Proof.Machine
end

section
/-! PROOFS. Frames that run into each other, and a pushed leader (spec/70_reset_and_hazards.md R136, R137): the walk of `decode`
over one list after another. -/

namespace Sys2Proof.Machine

/-- R73: less room only cuts the walk short. -/
theorem decodeWalk_eq_take {room more : Nat} (h : room ≤ more) (P : List Nat) :
    decodeWalk room P = (decodeWalk more P).take room := by
  refine List.ext_getElem? fun k => ?_
  rw [List.getElem?_take, decodeWalk_getElem?, decodeWalk_getElem?]
  split
  case isTrue hk => rw [if_pos (hk.trans_le h)]
  case isFalse => rfl

/-- R70: after whole pairs of mark and space the walk goes on as from its start, with the room that is left. -/
theorem decodeWalk_append {room more : Nat} (h : room ≤ more) (P Q : List Nat) (heven : P.length % 2 = 0) :
    decodeWalk room (P ++ Q) = (decodeWalk room P ++ decodeWalk more Q).take room := by
  match room, P with
  | 0, P => simp
  | room + 1, [] => simpa using decodeWalk_eq_take h Q
  | room + 1, [m] => simp at heven
  | room + 1, m :: s :: P =>
    have hrest : P.length % 2 = 0 := by simpa [Nat.add_assoc] using heven
    simp [decodeWalk_append (Nat.le_of_succ_le h) P Q hrest]

/-- R136: after an even number of elements the next frame's bits are appended. -/
theorem decodePayload_append_of_even (P Q : List Nat) (heven : P.length % 2 = 0) :
    decodePayload (P ++ Q) = (decodePayload P ++ decodePayload Q).take 40 :=
  decodeWalk_append (Nat.le_refl 40) P Q heven

/-- R136: after an odd number the first frame's last element is the mark of the next one's first element, and so on. -/
theorem decodePayload_append_of_odd (P Q : List Nat) (m : Nat) (hodd : P.length % 2 = 1) :
    decodePayload (P ++ m :: Q) = (decodePayload P ++ spaceBit m :: decodePayload Q).take 40 := by
  have hne : P ≠ [] := by rintro rfl; cases hodd
  obtain ⟨pairs, mark, rfl⟩ := (List.eq_nil_or_concat' P).resolve_left hne
  have heven : pairs.length % 2 = 0 := by rw [List.length_append, List.length_singleton] at hodd; omega
  rw [trailingMarkIsIgnored pairs mark heven, List.append_assoc, List.singleton_append]
  exact decodeWalk_append (more := 41) (by decide) pairs (mark :: m :: Q) heven

/-- R137: a first pair puts its bit before the others, which keep the room for 39. -/
theorem decodePayload_pair (m s : Nat) (P : List Nat) :
    decodePayload (m :: s :: P) = spaceBit s :: (decodePayload P).take 39 :=
  congrArg (spaceBit s :: ·) (decodeWalk_eq_take (show 39 ≤ 40 by decide) P)

/-- Settles O50: without CLEAR the PUSHes of both frames are those of one payload, whose walk goes on over the seam. -/
theorem framesWithoutClearRunOn : Obligations.FramesWithoutClearRunOn :=
  ⟨fun s c P Q => ⟨_, runCommands_clear_pushes c (P ++ Q) s, pushed_bits (P ++ Q)⟩,
    decodePayload_append_of_even, decodePayload_append_of_odd, by decide⟩

/-- Settles O51: the leader is a first pair; the two payloads evaluated. -/
theorem pushedLeaderMovesEveryBitUp : Obligations.PushedLeaderMovesEveryBitUp :=
  ⟨decodePayload_pair, by decide⟩

end Sys2Proof.Machine
end

section
/-! PROOFS. The duties whose breach stops a run (spec/70_reset_and_hazards.md R130, R134, R139): never stopping and keeping the
duties are both said of a state by its next step, so they agree by induction on the host's stream. -/

namespace Sys2Proof.Machine

/-- No number of steps stops. -/
def State.neverStops (s : State) : Prop := ∀ n, ∃ t, Host.Core.run Sys2Proof.core n s = .next t

/-- The host keeps its duties in what is left of its stream. -/
def State.keepsDuties (s : State) : Prop := hostKeepsDuties s.config.durW s.regs.isReady s.inputs = true

/-- A run never stops when its first step does not and the run from there never does. -/
theorem neverStops_iff_step (s : State) : s.neverStops ↔ ∃ t, step s = .next t ∧ t.neverStops := by
  constructor
  · intro h
    cases hstep : step s with
    | next t => exact ⟨t, rfl, fun n => by rw [← run_succ_next n s t hstep]; exact h (n + 1)⟩
    | fault f =>
      obtain ⟨_, hrun⟩ := h 1
      rw [run_succ_fault 0 s f hstep] at hrun; cases hrun
    | refused x =>
      obtain ⟨_, hrun⟩ := h 1
      rw [run_succ_refused 0 s x hstep] at hrun; cases hrun
  · rintro ⟨t, hstep, ht⟩ n
    cases n with
    | zero => exact ⟨s, run_zero s⟩
    | succ n => rw [run_succ_next n s t hstep]; exact ht n

/-- R122: with nothing more to present, every step is the same step. -/
theorem neverStops_of_inputs_nil {s : State} (h : s.inputs = []) : s.neverStops := by
  intro n
  induction n with
  | zero => exact ⟨s, run_zero s⟩
  | succ n ih => rwa [run_succ_next n s s (step_nil s h)]

section OneStep
variable {s : State} {rest : List HostEvent}

/-- The duties at a command: it completes, and the host keeps them after it. -/
theorem keepsDuties_iff_exec {cw : Nat} {i : Instr} (hin : s.inputs = .edge false cw :: rest)
    (hd : decode s.config.durW cw = .ok i) :
    s.keepsDuties ↔ ∃ t, exec i { s with inputs := rest } = .next t ∧ t.keepsDuties := by
  cases i with
  | nop d => simp [State.keepsDuties, hostKeepsDuties, hin, hd]
  | clear d => simp [State.keepsDuties, hostKeepsDuties, hin, hd]
  | push d =>
    cases hr : s.regs with
    | uninit => simp [State.keepsDuties, hostKeepsDuties, hin, hd, hr, exec_push_uninit]
    | ready r =>
      rw [exec_push_ready d _ r rfl]
      simp [State.keepsDuties, hostKeepsDuties, hin, hd, hr]
  | reserved d => simp [State.keepsDuties, hostKeepsDuties, hin, hd]

/-- The duties at any event: its step does not stop, and the host keeps them after it. -/
theorem keepsDuties_iff_step {e : HostEvent} (hin : s.inputs = e :: rest) :
    s.keepsDuties ↔ ∃ t, step s = .next t ∧ t.keepsDuties := by
  match e with
  | .edge true cw => simp [step_resetEdge hin, State.keepsDuties, hostKeepsDuties, hin]
  | .edge false cw =>
    cases hd : decode s.config.durW cw with
    | ok i => rw [step_commandEdge hin hd, keepsDuties_iff_exec hin hd]
    | error x =>
      have hstep : step s = .refused (.badCommandWord x) :=
        (refusalsComeOnlyFromBadWords s _).2 ⟨cw, rest, hin, .inr ⟨x, hd, rfl⟩⟩
      simp [hstep, State.keepsDuties, hostKeepsDuties, hin, hd]
  | .observe p =>
    cases hr : s.regs with
    | uninit =>
      have hstep : step s = .fault .readBeforeInit := (step_eq_fault_iff s _).2 ⟨hr, .inr ⟨rfl, p, rest, hin⟩⟩
      simp [hstep, State.keepsDuties, hostKeepsDuties, hin, hr]
    | ready r => simp [step_observe hin hr, State.keepsDuties, hostKeepsDuties, hin, hr]
  | .powerLoss => simp [step_powerLoss hin, State.keepsDuties, hostKeepsDuties, hin]

end OneStep

/-- R139: by induction on the host's stream, of which each step uses up one event. -/
theorem neverStops_iff_keepsDuties (events : List HostEvent) (s : State) (hin : s.inputs = events) :
    s.neverStops ↔ s.keepsDuties := by
  induction events generalizing s with
  | nil => exact iff_of_true (neverStops_of_inputs_nil hin) (by simp [State.keepsDuties, hostKeepsDuties, hin])
  | cons e rest ih =>
    rw [neverStops_iff_step, keepsDuties_iff_step hin]
    refine exists_congr fun t => and_congr_right fun hstep => ih t ?_
    rw [step_inputs s t hstep, hin, List.tail_cons]

/-- Settles O56: for the stream the state holds. -/
theorem runNeverStopsIffHostKeepsItsDuties : Obligations.RunNeverStopsIffHostKeepsItsDuties :=
  fun s => neverStops_iff_keepsDuties s.inputs s rfl

end Sys2Proof.Machine
end
